-- ==== Sys2Proof/Word.lean ====
section
/-! DEFINITION. The value types of the libm5451 engine (spec/00_scope.md R5; spec/30_encoding.md R52, R54, R55). -/

namespace Sys2Proof

/-- A character: an unsigned 8-bit code, read as ASCII (R54). -/
abbrev CharCode := BitVec 8

/-- A segment mask, or Character Mask: which of the 16 segments of a digit are lit (00_scope.md, glossary). -/
abbrev Mask := BitVec 16

/-- A Segment Frame: the two masks of one module in the split layout of R55. -/
abbrev SegFrame := BitVec 32

/-- A command word (R52). -/
abbrev CmdWord := BitVec 48

end Sys2Proof
end

