-- ==== Sys2Proof/Config.lean ====
section
/-! DEFINITION. The implementation parameters of spec/00_scope.md R4. They are arguments of the model
and not state (spec/10_state.md R13, R23). -/

namespace Sys2Proof

/-! ## The type `PIN` -/

/-- Which identifiers beyond the 8-bit numbers of the command word are pins. R4 leaves the type `PIN` open
and 20_memory.md R42 leaves to the platform which identifiers exist: a constant without a body, so a claim
about pins holds for every choice (DESIGN CHOICE, log 3, safe). -/
opaque Config.otherPin : Nat → Bool

/-- A pin identifier: the type `PIN` of R4, open but for its decidable equality. The 8-bit numbers are pins,
since a command word gives a pin as one and every such word is a command (30_encoding.md R59, R67; DEDUCED,
log 3, unsafe). The identifiers beyond them are numbered, and which numbers exist is free. The rules use
nothing of a pin but equality. -/
@[ext]
structure Pin where
  number : Nat
  isPin : number < 256 ∨ Config.otherPin number = true
deriving DecidableEq, Repr

/-! ## The other parameters -/

/-- The parameters of R4 with their constraints. `PIN` is the type `Pin` above and `FRAME_BITS` is fixed at
36 (R4), so neither is a field. The values written after `:=` only show that admissible parameters
exist; no constant of the model uses them but for the two delays (see `Config.engine`). -/
structure Config where
  /-- `MAX_CHAINS`, the number of registry slots. -/
  maxChains : Nat := 1
  /-- `FONT_MIN`, the lowest character code of the font. -/
  fontMin : CharCode := 0x20#8
  /-- `FONT_MAX`, the highest character code of the font. -/
  fontMax : CharCode := 0x20#8
  /-- `FONT`. The engine consults it only from `fontMin` to `fontMax` (20_memory.md R31). -/
  font : CharCode → Mask := fun _ => 0#16
  /-- `T_PULSE_US`, the clock high time of a bit write in microseconds. -/
  tPulseUs : Nat := 10
  /-- `T_SWEEP_MS`, the wait after each pair of the diagnostic sweep in milliseconds. -/
  tSweepMs : Nat := 1500
  maxChains_pos : 1 ≤ maxChains := by decide
  fontMin_ge : 0x20#8 ≤ fontMin := by decide
  fontMin_le_max : fontMin ≤ fontMax := by decide
  fontMax_le : fontMax ≤ 0x7E#8 := by decide
deriving Inhabited

/-- The open parameters of the engine (R4: `MAX_CHAINS`, `FONT_MIN`, `FONT_MAX`, `FONT` are OPEN): a
constant without a body, so a claim about it holds for every admissible choice (log 1, safe). -/
opaque Config.chip : Config

/-- The engine of the model: the open parameters free, and the two delays at the document's values
10 microseconds and 1500 milliseconds, R4's defaults (DESIGN CHOICE, log 2, unsafe). -/
def Config.engine : Config := { Config.chip with tPulseUs := 10, tSweepMs := 1500 }

end Sys2Proof
end

