-- ==== Sys2Proof/Syntax.lean ====
section
/-! DEFINITION. The eight abstract commands (spec/30_encoding.md R50, R51), one constructor per row of
spec/opcode_table.json. -/

namespace Sys2Proof

/-- A command with its operands. R51: this level is the normative one, and the command word of R52 is a
transport for it; R59: on this level a chain index `k`, a message address `m` and a delay `t` are
natural numbers and a pin is a `PIN`. -/
inductive Instr where
  /-- `REGCHAIN dataPin, clockPin` (R71). -/
  | regchain (dataPin clockPin : Pin)
  /-- `WRBIT k, b` (R75). -/
  | wrbit (k : Nat) (b : Bool)
  /-- `WRFRAME k, f` (R77). -/
  | wrframe (k : Nat) (f : SegFrame)
  /-- `CHMASK c` (R86). -/
  | chmask (c : CharCode)
  /-- `COMPOSE l, r` (R88). -/
  | compose (l r : CharCode)
  /-- `WRCHARS k, l, r` (R91). -/
  | wrchars (k : Nat) (l r : CharCode)
  /-- `SCROLL m, t` (R102). -/
  | scroll (m t : Nat)
  /-- `DTEST k, s` (R112). -/
  | dtest (k : Nat) (s : CharCode)
deriving DecidableEq, Repr

/-- Whether the command is on the document's public surface (R50, column "surface"; 60_exceptions.md R131). -/
def Instr.isPublic : Instr → Bool
  | .regchain _ _ => true
  | .wrbit _ _ => false
  | .wrframe _ _ => false
  | .chmask _ => false
  | .compose _ _ => false
  | .wrchars _ _ _ => true
  | .scroll _ _ => true
  | .dtest _ _ => true

end Sys2Proof
end

