-- ==== Sys2Proof/Machine/State.lean ====
section
/-! DEFINITION. The architectural state (spec/10_state.md), as plain data, the reasons a step can stop,
and the state after reset (R24, R140). -/

namespace Sys2Proof.Machine

open Sys2Proof

/-- A registry descriptor `(data, clock)` (R10). -/
structure Chain where
  data : Pin
  clock : Pin
deriving DecidableEq, Repr

/-- A logic level a pin is driven to (30_encoding.md R56). -/
inductive Level where
  | low
  | high
deriving DecidableEq, Repr

/-- `PINMODE` (R14). -/
inductive PinMode where
  | unconfigured
  | output
deriving DecidableEq, Repr

/-- `PINLVL` (R14). `unknown` stands for either level and is not a third one. -/
inductive PinLevel where
  | unknown
  | driven (l : Level)
deriving DecidableEq, Repr

/-- What the model keeps of one pin (R14). -/
structure PinState where
  mode : PinMode
  level : PinLevel
deriving DecidableEq, Repr

/-- A pin the engine has not touched (R24): unconfigured, at an unknown level. -/
def PinState.untouched : PinState := ⟨.unconfigured, .unknown⟩

/-- One call of a pin or delay primitive (00_scope.md R7). -/
inductive Event where
  /-- `CFG(p)`, from `PinCfg`. -/
  | cfg (p : Pin)
  /-- `SET(p, l)`, from `PinSet`. -/
  | set (p : Pin) (l : Level)
  /-- `DLY_US(n)`, from `WaitUs`. -/
  | dlyUs (n : Nat)
  /-- `DLY_MS(n)`, from `WaitMs`. -/
  | dlyMs (n : Nat)
deriving DecidableEq, Repr

/-- A fault reason of 60_exceptions.md R124, with the value recorded. It is what the mark `FAULT`
holds and stops nothing (R125). -/
inductive FaultReason where
  /-- Code 1. -/
  | chainIndexOutOfRange (k : Nat)
  /-- Code 2. -/
  | invalidCommand (w : CmdWord)
deriving DecidableEq, Repr

/-- The Animation Window State of a running `SCROLL` (R20; 42_sequencers.md R102, R103): signed digit
indices `hi` and `lo` (90_conflicts.md C3), the read cursor `cur`, the Boolean `ex`. -/
structure Marquee where
  hi : Int
  lo : Int
  cur : Nat
  ex : Bool
deriving DecidableEq, Repr

/-- Where a running `SCROLL` stands inside an animation frame (R17): the next event is phase `ph` of wire
position `pos` of the write to module `k`, or it is the delay. -/
inductive ScrollAt where
  | write (k : Nat) (pos : Fin 36) (ph : Fin 4)
  | delay
deriving DecidableEq, Repr

/-- Where a running `DTEST` stands inside a step (R17). -/
inductive SweepAt where
  | write (pos : Fin 36) (ph : Fin 4)
  | delay
deriving DecidableEq, Repr

/-- `SEQ`, the sequencer position (R17). A position inside a command carries the command's operands and
its transient cursors (R20) beside the loop counters of R17's table (log 9): they live exactly as long
as the command runs. -/
inductive SeqPos where
  /-- `IDLE`. -/
  | idle
  /-- `REG(e)` of `REGCHAIN data, clock`. -/
  | reg (data clock : Pin) (e : Fin 4)
  /-- `BIT(ph)` of `WRBIT k, b`. -/
  | bit (k : Nat) (b : Bool) (ph : Fin 4)
  /-- `FRM(pos, ph)` of `WRFRAME k, f`, or of the `WRCHARS` that composes `f`. -/
  | frm (k : Nat) (f : SegFrame) (pos : Fin 36) (ph : Fin 4)
  /-- `SCR(frame, k, pos, ph)` and `SCR(frame, DELAY)` of `SCROLL m, t`. At a write `cursors` are those
  of the animation frame; at the delay steps 3 and 4 of R102 have already updated them. -/
  | scr (m t : Nat) (cursors : Marquee) (frame : Nat) (place : ScrollAt)
  /-- `SWP(c, pos, ph)` and `SWP(c, DELAY)` of `DTEST k`; `c` is the sweep cursor (R20, R112). -/
  | swp (k c : Nat) (place : SweepAt)
deriving DecidableEq, Repr

/-- The `MSG` space (20_memory.md R32): 8-bit codes at natural-number addresses. `cells` lists the
addresses whose byte differs from `fill`, and `fill` is what every other address reads as. It is host
memory: the engine only reads it, and nothing in the model says what `fill` is but the choice that
`State.reset` names (DESIGN CHOICE, log 7). -/
structure Memory where
  cells : List Host.Cell
  fill : BitVec 8
deriving DecidableEq, Repr

/-- One thing the host does to an idle engine (00_scope.md R8; 10_state.md R23; log 6). -/
inductive HostInput where
  /-- It issues a command as a command word (30_encoding.md R52). -/
  | word (w : CmdWord)
  /-- It issues an abstract command (R51). -/
  | command (i : Instr)
  /-- It stores a byte of message text in its own memory. -/
  | store (a : Nat) (b : BitVec 8)
  /-- It destroys the engine instance and creates another (70_reset_and_hazards.md R140, R141). -/
  | newInstance
deriving DecidableEq, Repr

/-- Everything the spec gives the machine (10_state.md, overview), and the two inputs a step reads. -/
@[ext]
structure State where
  /-- The slots `REG[0]` to `REG[COUNT-1]`; a slot at or above `COUNT` holds no value (R10 to R12). -/
  reg : List Chain
  /-- The ghost `DISP[k]` of every registered module (R21, R22). -/
  disp : List (Option SegFrame)
  /-- `PINMODE` and `PINLVL` of every pin that is not untouched, by rising number of the pin (R14). -/
  pins : List (Nat × PinState)
  /-- `TRACE`, the events since reset in the order they were emitted (R15). -/
  trace : List Event
  /-- `RES`, `none` when it is not valid (R16). -/
  res : Option (BitVec 32)
  /-- `SEQ` (R17). -/
  seq : SeqPos
  /-- `FAULT` (R18). -/
  fault : Option FaultReason
  /-- Host memory, the `MSG` space (R23; 20_memory.md R32). -/
  msg : Memory
  /-- What the host will do next, first thing first (R23; 00_scope.md R8). -/
  inputs : List HostInput
deriving DecidableEq, Repr

/-- `COUNT`, the number of slots written so far (R13). -/
def State.count (s : State) : Nat := s.reg.length

/-- Why a step can stop with a fault. -/
inductive Fault where
  /-- Raised by `tick` alone, when `SEQ` is a position inside a write to a chain that is not registered:
  the slot holds no pins (R12). No run reaches such a state (`State.Inv`), and no command's meaning
  raises it. Safe (log 13). -/
  | emptySlot (k : Nat)
deriving DecidableEq, Repr

/-- Why a step can be refused. -/
inductive Refusal where
  /-- Raised by `exec` for a command that has no meaning yet. Every command has one, so nothing raises
  it. Safe. -/
  | notModelled (mnemonic : String)
deriving DecidableEq, Repr

/-- The `MSG` space before the host has stored anything. The spec does not say what host memory holds:
every address reads as 0 (DESIGN CHOICE, log 7, unsafe). -/
def Memory.reset : Memory := ⟨[], 0#8⟩

/-- The state after reset, which is the creation of the engine instance (R24, R140). The values of `msg`
and `inputs` are the model's own (log 6, log 7). -/
def State.reset : State where
  reg := []
  disp := []
  pins := []
  trace := []
  res := none
  seq := .idle
  fault := none
  msg := Memory.reset
  inputs := []

end Sys2Proof.Machine
end

