-- ==== Sys2Proof/Machine/Ops.lean ====
section
/-! DEFINITION. The named operations over the state: pins and their events, the registry, the ghost
display, host memory, and raising a fault reason, the one shared operation that every fault goes
through (spec/60_exceptions.md R125). There is no return from it: it has no handler and saves nothing. -/

namespace Sys2Proof.Machine

open Sys2Proof

/-! ## Sparse maps in canonical form -/

/-- What key `a` holds; a key that is not listed holds `d`. -/
def sparseGet {α : Type} (d : α) : List (Nat × α) → Nat → α
  | [], _ => d
  | (b, v) :: rest, a => if a = b then v else sparseGet d rest a

/-- Key `a` holds `v` from now on. Keys stay in rising order and no key is listed with `d`. -/
def sparseSet {α : Type} [DecidableEq α] (d : α) : List (Nat × α) → Nat → α → List (Nat × α)
  | [], a, v => if v = d then [] else [(a, v)]
  | (b, w) :: rest, a, v =>
    if a < b then (if v = d then (b, w) :: rest else (a, v) :: (b, w) :: rest)
    else if a = b then (if v = d then rest else (a, v) :: rest)
    else (b, w) :: sparseSet d rest a v

/-- The canonical form: keys strictly rising, none listed with `d`. -/
def sparseWf {α : Type} [DecidableEq α] (d : α) (l : List (Nat × α)) : Bool :=
  decide (l.Pairwise fun x y => x.1 < y.1) && l.all fun x => decide (x.2 ≠ d)

/-! ## Host memory (20_memory.md R32) -/

/-- `MemRead(MSG, a, 8)`: the listed byte, or else `fill`, which is what an unlisted address reads as. -/
def Memory.read (M : Memory) (a : Nat) : BitVec 8 := sparseGet M.fill M.cells a

/-- The host stores a byte of message text. The engine itself writes no memory (00_scope.md R6). -/
def Memory.write (M : Memory) (a : Nat) (b : BitVec 8) : Memory :=
  { M with cells := sparseSet M.fill M.cells a b }

/-- The canonical form of host memory. -/
def Memory.wf (M : Memory) : Bool := sparseWf M.fill M.cells

/-- Past every listed address of `M`. -/
def Memory.bound (M : Memory) : Nat := M.cells.foldr (fun x n => max (x.1 + 1) n) 0

/-- The least `i` below `fuel` whose byte at `m + i` is zero. -/
def Memory.scanNull (M : Memory) : (fuel m : Nat) → Option Nat
  | 0, _ => none
  | fuel + 1, m => if M.read m = 0#8 then some 0 else (M.scanNull fuel (m + 1)).map (· + 1)

/-- The message length `L` of R102: the least `i` with `MemRead(MSG, m + i, 8) = 0`, or none when there
is no such `i` (R109). From `bound` on every address reads as `fill`, so if there is a null at or above
`m` there is one up to `max m bound`. -/
def Memory.messageLength (M : Memory) (m : Nat) : Option Nat := M.scanNull (M.bound - m + 1) m

/-! ## Pins and events (00_scope.md R7; 10_state.md R14, R15) -/

/-- What the pin state becomes when an event takes effect (R14). -/
def applyEvent (pins : List (Nat × PinState)) : Event → List (Nat × PinState)
  | .cfg p =>
    sparseSet .untouched pins p.number { sparseGet .untouched pins p.number with mode := .output }
  | .set p l =>
    sparseSet .untouched pins p.number { sparseGet .untouched pins p.number with level := .driven l }
  | .dlyUs _ => pins
  | .dlyMs _ => pins

/-- The pin state that a list of events leaves, from reset. -/
def replay (es : List Event) : List (Nat × PinState) := es.foldl applyEvent []

/-- The state of pin `p`. -/
def State.pin (s : State) (p : Pin) : PinState := sparseGet .untouched s.pins p.number

/-- `PINMODE[p]` (R14). -/
def State.pinMode (s : State) (p : Pin) : PinMode := (s.pin p).mode

/-- `PINLVL[p]` (R14). -/
def State.pinLevel (s : State) (p : Pin) : PinLevel := (s.pin p).level

/-- A primitive of R7 executes: its event is appended to `TRACE` and takes effect at the pins. -/
def State.emit (s : State) (e : Event) : State :=
  { s with pins := applyEvent s.pins e, trace := s.trace ++ [e] }

/-- Primitives execute one after another, in the order of the list (20_memory.md R43). -/
def State.emitAll (s : State) (es : List Event) : State := es.foldl State.emit s

/-! ## Registry, ghost display, end of a command -/

/-- `REG[COUNT] <- (data, clock)`, `DISP[COUNT] <- none`, `COUNT <- COUNT + 1` (40_pin_protocol.md R71). -/
def State.append (s : State) (ch : Chain) : State :=
  { s with reg := s.reg ++ [ch], disp := s.disp ++ [none] }

/-- `DISP[k] <- d` (R22). -/
def State.setDisp (s : State) (k : Nat) (d : Option SegFrame) : State :=
  { s with disp := s.disp.set k d }

/-- The command completes: its result, if it has one, is on `RES`, which is not valid otherwise (R16),
and `SEQ` is `IDLE` (R17). -/
def State.complete (s : State) (r : Option (BitVec 32)) : State :=
  { s with res := r, seq := .idle }

/-- The command has been accepted and its next event is that of position `p`; `RES` holds no result of
it yet (R16; log 10). -/
def State.start (s : State) (p : SeqPos) : State := { s with res := none, seq := p }

/-- `raise` (60_exceptions.md R125): `FAULT` keeps the first reason, `RES` is not valid, `SEQ` is `IDLE`,
all else is as it was, and the engine goes on to the next command. -/
def State.raise (s : State) (reason : FaultReason) : State :=
  { s with fault := some (s.fault.getD reason), res := none, seq := .idle }

/-- The chain-index check (40_pin_protocol.md R73): `body` runs on the descriptor of chain `k`, which
exists exactly when `k < COUNT`. -/
def State.withChain (s : State) (k : Nat) (body : Chain → State) : State :=
  match s.reg[k]? with
  | some ch => body ch
  | none => s.raise (.chainIndexOutOfRange k)

end Sys2Proof.Machine
end

