-- ==== Sys2Proof/Machine/Flags.lean ====
section
/-! DEFINITION. What a command reports. The engine has no status flags and no condition codes
(spec/10_state.md R19); a command reports on the result port `RES` (R16) and through the mark `FAULT`
(R18; spec/60_exceptions.md R124). -/

namespace Sys2Proof.Machine

open Sys2Proof

/-- A Boolean on `RES`: 1 is success (R16). -/
def resBool (b : Bool) : Option (BitVec 32) := some (if b then 1#32 else 0#32)

/-- A mask on `RES`, zero-extended to 32 bits (R16). -/
def resMask (mask : Mask) : Option (BitVec 32) := some (mask.setWidth 32)

/-- A Segment Frame on `RES` (R16). -/
def resFrame (f : SegFrame) : Option (BitVec 32) := some f

/-- The code of a fault reason (R124). It appears in no hardware register. -/
def FaultReason.code : FaultReason → Nat
  | .chainIndexOutOfRange _ => 1
  | .invalidCommand _ => 2

end Sys2Proof.Machine
end

