-- ==== Sys2Proof/Machine/Operands.lean ====
section
/-! DEFINITION. The values the commands compute: levels, the wire function, character masks, frame
assembly and disassembly, the marquee's cursors and characters (spec/30_encoding.md, 41_compositor.md,
42_sequencers.md). -/

namespace Sys2Proof.Machine

open Sys2Proof

/-! ## Levels and the Protocol Frame (30_encoding.md R56 to R58) -/

/-- `Lvl` (R56). -/
def lvl (b : Bool) : Level := if b then .high else .low

/-- `Wire(f, p)` (R58): the bit at wire position `p`, 0 to 35. -/
def wire (f : SegFrame) (p : Nat) : Bool :=
  if p = 0 then true
  else if p = 1 then false
  else if p ≤ 33 then f.getLsbD (p - 2)
  else false

/-- The Protocol Frame as a 36-bit number with wire position `p` at bit `p` (R58). -/
def protocolFrame (f : SegFrame) : BitVec 36 := (f.setWidth 36 <<< 2) ||| 1#36

/-! ## Characters, masks and frames (30_encoding.md R60, R61; 41_compositor.md R86, R88) -/

/-- The case fold of R86: `'a'` to `'z'` become `'A'` to `'Z'`. -/
def foldCase (c : CharCode) : CharCode :=
  if 0x61#8 ≤ c ∧ c ≤ 0x7A#8 then c - 0x20#8 else c

/-- `CharMask(c)` (R86): fold, then the range test, then the font. -/
def charMask (cfg : Config) (c : CharCode) : Mask :=
  let u := foldCase c
  if u < cfg.fontMin ∨ cfg.fontMax < u then 0x0000#16 else cfg.font u

/-- `FrameOf(ML, MR)` (R60). The masks are widened to 32 bits before they are shifted (R90). -/
def frameOf (ml mr : Mask) : SegFrame :=
  (ml.setWidth 32 <<< 8) ||| (mr.extractLsb' 0 8).setWidth 32 |||
    ((mr.extractLsb' 8 8).setWidth 32 <<< 24)

/-- `LeftOf(f) = f[23:8]` (R61). -/
def leftOf (f : SegFrame) : Mask := f.extractLsb' 8 16

/-- `RightOf(f) = f[31:24] :: f[7:0]` (R61). -/
def rightOf (f : SegFrame) : Mask := f.extractLsb' 24 8 ++ f.extractLsb' 0 8

/-- `Compose(l, r)` (R88). -/
def composeFrame (cfg : Config) (l r : CharCode) : SegFrame :=
  frameOf (charMask cfg l) (charMask cfg r)

/-! ## The marquee (42_sequencers.md R101 to R103) -/

/-- `BLANK` (R102): code 0, whose mask is zero for every font. -/
def blank : CharCode := 0x00#8

/-- The cursors at the start of a `SCROLL` with `n` chains, where `last = 2n - 1` (R101, R102). -/
def Marquee.init (n : Nat) : Marquee :=
  let last : Int := 2 * (n : Int) - 1
  { hi := last - 1, lo := last + 1, cur := 0, ex := false }

/-- Step 1 of R102: the character that digit position `d` shows, for the message at `m`. -/
def Marquee.shows (q : Marquee) (M : Memory) (m d : Nat) : CharCode :=
  if (d : Int) ≤ q.hi then blank
  else if q.lo ≤ (d : Int) then blank
  else M.read ((m : Int) + ((q.cur : Int) + (d : Int) + 1 - q.lo)).toNat

/-- Steps 3 and 4 of R102: retire one unit of leading padding if any remains, then widen the trailing
padding or advance the read cursor and detect exhaustion. -/
def Marquee.advance (q : Marquee) (M : Memory) (m : Nat) : Marquee :=
  let hi := if 0 ≤ q.hi then q.hi - 1 else q.hi
  if q.ex then { q with hi := hi, lo := q.lo - 1 }
  else { q with hi := hi, cur := q.cur + 1, ex := decide (M.read (m + (q.cur + 1)) = 0#8) }

/-- The frame that module `k` is sent in an animation frame (steps 1 and 2 of R102; R101). -/
def Marquee.frameFor (q : Marquee) (cfg : Config) (M : Memory) (m k : Nat) : SegFrame :=
  composeFrame cfg (q.shows M m (2 * k)) (q.shows M m (2 * k + 1))

/-- The number of animation frames of a `SCROLL` of `L` characters with `n` chains (R105). -/
def scrollFrames (L n : Nat) : Nat := L + 2 * n + 1

/-! ## The sweep (42_sequencers.md R112) -/

/-- The character of sweep cursor `c`. On the operands of R112 `c` is at most `0x7F` and fits (R113(b)). -/
def sweepChar (c : Nat) : CharCode := BitVec.ofNat 8 c

/-- The character of the right digit in the step with cursor `c`: code `c + 1` (R112), or a blank where that is
`FONT_MAX + 1`, in the last pair (R113(b); 93_implementation_defined.md U24). Composing `FONT_MAX + 1` by R86
gives the same blank unless it is a lower-case letter, and there R113(b) and U24 decide (DEDUCED, log 21). -/
def sweepRightChar (cfg : Config) (c : Nat) : CharCode :=
  if cfg.fontMax.toNat < c + 1 then blank else sweepChar (c + 1)

/-- The frame a step of the sweep sends: left digit `c`, right digit `c + 1` (R112, R113(b)). -/
def sweepFrame (cfg : Config) (c : Nat) : SegFrame :=
  composeFrame cfg (sweepChar c) (sweepRightChar cfg c)

end Sys2Proof.Machine
end

