-- ==== Sys2Proof/Machine/PinProtocol.lean ====
section
/-! DEFINITION. The Pin Protocol Engine: REGCHAIN, WRBIT, WRFRAME (spec/40_pin_protocol.md).
The meanings proper take the parameters as an argument; the `exec…` definitions are those of the engine
of Config.lean. -/

namespace Sys2Proof.Machine

open Sys2Proof

/-- Event `e` of `REGCHAIN d, c` (R71): configure both pins, data first, then drive both low, data
first. The order of the two pins is 92_eei_decisions.md D10 (log 16). -/
def regEvent (d c : Pin) (e : Fin 4) : Event :=
  match e with
  | 0 => .cfg d
  | 1 => .cfg c
  | 2 => .set d .low
  | 3 => .set c .low

/-- The four events of a registration (R71). -/
def regEvents (d c : Pin) : List Event :=
  [regEvent d c 0, regEvent d c 1, regEvent d c 2, regEvent d c 3]

/-- The end of a registration (R71): the slot is written, and the result is 1. -/
def State.registered (s : State) (d c : Pin) : State :=
  (s.append ⟨d, c⟩).complete (resBool true)

/-- `REGCHAIN d, c` (R71). -/
def regchain (cfg : Config) (d c : Pin) (s : State) : State :=
  if s.count = cfg.maxChains then s.complete (resBool false)
  else (s.emitAll (regEvents d c)).registered d c

/-- Phase `ph` of `BitOut` on chain `ch` (R75): data, clock high, the pulse, clock low. -/
def bitEvent (cfg : Config) (ch : Chain) (b : Bool) (ph : Fin 4) : Event :=
  match ph with
  | 0 => .set ch.data (lvl b)
  | 1 => .set ch.clock .high
  | 2 => .dlyUs cfg.tPulseUs
  | 3 => .set ch.clock .low

/-- The four events of `BitOut` (R75). -/
def bitEvents (cfg : Config) (ch : Chain) (b : Bool) : List Event :=
  [bitEvent cfg ch b 0, bitEvent cfg ch b 1, bitEvent cfg ch b 2, bitEvent cfg ch b 3]

/-- `WRBIT k, b` (R75), issued bare: nothing can then be said of what the module shows (R22(c)). -/
def wrbit (cfg : Config) (k : Nat) (b : Bool) (s : State) : State :=
  s.withChain k fun ch => ((s.emitAll (bitEvents cfg ch b)).setDisp k none).complete none

/-- The 144 events of `FrameOut` (R77): the 36 bits of the Protocol Frame in wire order. (Irreducible, so
that no proof unfolds 144 events by accident; `rw [frameEvents]` unfolds it on purpose.) -/
@[irreducible] def frameEvents (cfg : Config) (ch : Chain) (f : SegFrame) : List Event :=
  (List.range 36).flatMap fun p => bitEvents cfg ch (wire f p)

/-- `FrameOut(k, f)` (R77), where `ch` is the descriptor of chain `k`. -/
def State.frameOut (s : State) (cfg : Config) (k : Nat) (ch : Chain) (f : SegFrame) : State :=
  (s.emitAll (frameEvents cfg ch f)).setDisp k (some f)

/-- `WRFRAME k, f` (R77). -/
def wrframe (cfg : Config) (k : Nat) (f : SegFrame) (s : State) : State :=
  s.withChain k fun ch => (s.frameOut cfg k ch f).complete none

/-- The meaning of `REGCHAIN` (R71, R72). -/
def execRegchain (d c : Pin) (s : State) : Host.Outcome State Fault Refusal :=
  .next (regchain Config.engine d c s)

/-- The meaning of `WRBIT` (R75). -/
def execWrbit (k : Nat) (b : Bool) (s : State) : Host.Outcome State Fault Refusal :=
  .next (wrbit Config.engine k b s)

/-- The meaning of `WRFRAME` (R77). -/
def execWrframe (k : Nat) (f : SegFrame) (s : State) : Host.Outcome State Fault Refusal :=
  .next (wrframe Config.engine k f s)

end Sys2Proof.Machine
end

