-- ==== Sys2Proof/Machine/Compositor.lean ====
section
/-! DEFINITION. The Character Compositor: CHMASK, COMPOSE, WRCHARS (spec/41_compositor.md). -/

namespace Sys2Proof.Machine

open Sys2Proof

/-- `CHMASK c` (R86): the mask is the result and nothing else changes (R85). -/
def chmask (cfg : Config) (c : CharCode) (s : State) : State :=
  s.complete (resMask (charMask cfg c))

/-- `COMPOSE l, r` (R88): the frame is the result and nothing else changes (R85). -/
def compose (cfg : Config) (l r : CharCode) (s : State) : State :=
  s.complete (resFrame (composeFrame cfg l r))

/-- `CharsOut(k, l, r)` (R91), where `ch` is the descriptor of chain `k`. -/
def State.charsOut (s : State) (cfg : Config) (k : Nat) (ch : Chain) (l r : CharCode) : State :=
  s.frameOut cfg k ch (composeFrame cfg l r)

/-- `WRCHARS k, l, r` (R91). -/
def wrchars (cfg : Config) (k : Nat) (l r : CharCode) (s : State) : State :=
  s.withChain k fun ch => (s.charsOut cfg k ch l r).complete none

/-- The meaning of `CHMASK` (R86). -/
def execChmask (c : CharCode) (s : State) : Host.Outcome State Fault Refusal :=
  .next (chmask Config.engine c s)

/-- The meaning of `COMPOSE` (R88). -/
def execCompose (l r : CharCode) (s : State) : Host.Outcome State Fault Refusal :=
  .next (compose Config.engine l r s)

/-- The meaning of `WRCHARS` (R91). -/
def execWrchars (k : Nat) (l r : CharCode) (s : State) : Host.Outcome State Fault Refusal :=
  .next (wrchars Config.engine k l r s)

end Sys2Proof.Machine
end

