-- ==== Sys2Proof/Machine/Sequencers.lean ====
section
/-! DEFINITION. The command sequencers: SCROLL, DTEST (spec/42_sequencers.md). Both are loops; each loop
is written on a number of rounds it may still take. Where that number runs out before the loop has
ended, the engine is left running at the first event of the next round, and later steps go on from
there event by event (`tick`). For a message that ends and for every sweep the number is enough; for a
message that has no null it is zero, and the command never ends (R109; log 5). -/

namespace Sys2Proof.Machine

open Sys2Proof

/-- Step 2 of R102 for the modules below `n`: one frame per module, in descending order. -/
def writeModules (cfg : Config) (m : Nat) (q : Marquee) : (n : Nat) → State → State
  | 0, s => s
  | k + 1, s =>
    match s.reg[k]? with
    | some ch => writeModules cfg m q k (s.frameOut cfg k ch (q.frameFor cfg s.msg m k))
    | none => writeModules cfg m q k s

/-- The position of the first event of animation frame `frame`, which starts with cursors `q`: the write
to the rightmost module, or the delay when no chain is registered (R108). -/
def State.scrollFrameStart (s : State) (m t : Nat) (q : Marquee) (frame : Nat) : SeqPos :=
  match s.count with
  | 0 => .scr m t (q.advance s.msg m) frame .delay
  | k + 1 => .scr m t q frame (.write k 0 0)

/-- The animation frames of `SCROLL m, t` from frame `frame` on, at most `rounds` of them: steps 1 to 6
of R102. -/
def scrollLoop (cfg : Config) (m t : Nat) : (rounds frame : Nat) → Marquee → State → State
  | 0, frame, q, s => s.start (s.scrollFrameStart m t q frame)
  | rounds + 1, frame, q, s =>
    let written := writeModules cfg m q s.count s
    let q' := q.advance s.msg m
    let waited := written.emit (.dlyMs t)
    if q'.lo < 0 then waited.complete none
    else scrollLoop cfg m t rounds (frame + 1) q' waited

/-- `SCROLL m, t` (R102). The number of rounds is that of R105 when the message ends. -/
def scroll (cfg : Config) (m t : Nat) (s : State) : State :=
  if s.msg.read m = 0#8 then s.complete none
  else
    let rounds :=
      match s.msg.messageLength m with
      | some L => scrollFrames L s.count
      | none => 0
    scrollLoop cfg m t rounds 1 (Marquee.init s.count) s

/-- The position of the first event of the sweep step with cursor `c`. -/
def sweepStart (k c : Nat) : SeqPos := .swp k c (.write 0 0)

/-- The steps of `DTEST k` from cursor `c` on, at most `rounds` of them (R112). -/
def sweepLoop (cfg : Config) (k : Nat) (ch : Chain) : (rounds c : Nat) → State → State
  | 0, c, s => if c ≤ cfg.fontMax.toNat then s.start (sweepStart k c) else s.complete none
  | rounds + 1, c, s =>
    if c ≤ cfg.fontMax.toNat then
      sweepLoop cfg k ch rounds (c + 2)
        ((s.frameOut cfg k ch (sweepFrame cfg c)).emit (.dlyMs cfg.tSweepMs))
    else s.complete none

/-- The number of steps of the sweep from `c` (R113(a)). -/
def sweepSteps (cfg : Config) (c : Nat) : Nat :=
  if cfg.fontMax.toNat < c then 0 else (cfg.fontMax.toNat - c) / 2 + 1

/-- `DTEST k, c` (R112). -/
def dtest (cfg : Config) (k : Nat) (c : CharCode) (s : State) : State :=
  s.withChain k fun ch => sweepLoop cfg k ch (sweepSteps cfg c.toNat) c.toNat s

/-- The meaning of `SCROLL` (R102). -/
def execScroll (m t : Nat) (s : State) : Host.Outcome State Fault Refusal :=
  .next (scroll Config.engine m t s)

/-- The meaning of `DTEST` (R112). -/
def execDtest (k : Nat) (c : CharCode) (s : State) : Host.Outcome State Fault Refusal :=
  .next (dtest Config.engine k c s)

end Sys2Proof.Machine
end

