-- ==== Sys2Proof/Machine/Dispatch.lean ====
section
/-! DEFINITION. One arm per command (spec/30_encoding.md R50). -/

namespace Sys2Proof.Machine

open Sys2Proof

-- Run one whole command on an idle engine (spec/00_scope.md R8).
def exec (i : Instr) (s : State) : Host.Outcome State Fault Refusal :=
  match i with
  | .regchain dataPin clockPin => Sys2Proof.Machine.execRegchain dataPin clockPin s
  | .wrbit k b => Sys2Proof.Machine.execWrbit k b s
  | .wrframe k f => Sys2Proof.Machine.execWrframe k f s
  | .chmask c => Sys2Proof.Machine.execChmask c s
  | .compose l r => Sys2Proof.Machine.execCompose l r s
  | .wrchars k l r => Sys2Proof.Machine.execWrchars k l r s
  | .scroll m t => Sys2Proof.Machine.execScroll m t s
  | .dtest k c => Sys2Proof.Machine.execDtest k c s

end Sys2Proof.Machine
end

