-- ==== Sys2Proof/WellFormed.lean ====
section
/-! DEFINITION. Which abstract commands have a command word: those "whose operands fit their fields"
(spec/30_encoding.md R67, with the field widths of R53 and R59). -/

namespace Sys2Proof

/-- The operand fits a field of `width` bits as an unsigned number (R59). -/
def fitsField (width v : Nat) : Bool := decide (v < 2 ^ width)

/-- Every operand fits its field of R53. Characters, the bit of `WRBIT` and frames fit by their type. -/
def Instr.wf : Instr → Bool
  | .regchain d c => fitsField 8 d.number && fitsField 8 c.number
  | .wrbit k _ => fitsField 8 k
  | .wrframe k _ => fitsField 8 k
  | .chmask _ => true
  | .compose _ _ => true
  | .wrchars k _ _ => fitsField 8 k
  | .scroll m t => fitsField 16 m && fitsField 16 t
  | .dtest k _ => fitsField 8 k

end Sys2Proof
end

