-- ==== Sys2Proof/Decode.lean ====
section
/-! DEFINITION. The command word: decoding, total and rejecting by name, and encoding
(spec/30_encoding.md R52, R53, R59, R62, R63, R67). -/

namespace Sys2Proof

/-- Why a command word is `INVALID`. -/
inductive Reject where
  /-- The `OP` byte names no command (R62). -/
  | reservedOpcode (op : BitVec 8)
  /-- The `OP` byte is known and a bit in a field reserved for it is not zero (R63). -/
  | reservedField (op : BitVec 8)
deriving DecidableEq, Repr

/-- `OP` = bits 47:40 (R52). -/
def opField (w : CmdWord) : BitVec 8 := w.extractLsb' 40 8

/-- `A` = bits 39:32 (R52). -/
def aField (w : CmdWord) : BitVec 8 := w.extractLsb' 32 8

/-- `W` = bits 31:0 (R52). -/
def wField (w : CmdWord) : BitVec 32 := w.extractLsb' 0 32

/-- `W[31:16]`. -/
def wHigh (w : CmdWord) : BitVec 16 := w.extractLsb' 16 16

/-- `W[15:0]`. -/
def wLow (w : CmdWord) : BitVec 16 := w.extractLsb' 0 16

/-- `W[15:8]`. -/
def wByte1 (w : CmdWord) : BitVec 8 := w.extractLsb' 8 8

/-- `W[7:0]`. -/
def wByte0 (w : CmdWord) : BitVec 8 := w.extractLsb' 0 8

/-- `W[0]`. -/
def wBit0 (w : CmdWord) : Bool := w.getLsbD 0

/-- The word with the three fields `OP`, `A`, `W` of R52. -/
def ofFields (op a : BitVec 8) (w : BitVec 32) : CmdWord := op ++ a ++ w

/-- The command, if the fields reserved for its opcode are all zero (R63). -/
def checkReserved (w : CmdWord) (reservedAreZero : Bool) (i : Instr) : Except Reject Instr :=
  if reservedAreZero then .ok i else .error (.reservedField (opField w))

/-- The pin that an 8-bit field names: "a pin is the 8-bit number in its field" (R59). -/
def pinOfByte (b : BitVec 8) : Pin := ⟨b.toNat, .inl b.isLt⟩

/-- The decoder (R53, R59, R62, R63): every operand is its field as an unsigned number. The second
argument of `checkReserved` tests the fields that R53 lists as reserved for the command. -/
def decode (w : CmdWord) : Except Reject Instr :=
  if opField w = 0x01#8 then
    checkReserved w (w.extractLsb' 8 24 == 0#24) (.regchain (pinOfByte (aField w)) (pinOfByte (wByte0 w)))
  else if opField w = 0x02#8 then
    checkReserved w (w.extractLsb' 1 31 == 0#31) (.wrbit (aField w).toNat (wBit0 w))
  else if opField w = 0x03#8 then
    checkReserved w true (.wrframe (aField w).toNat (wField w))
  else if opField w = 0x04#8 then
    checkReserved w (wField w == 0#32) (.chmask (aField w))
  else if opField w = 0x05#8 then
    checkReserved w (aField w == 0#8 && wHigh w == 0#16) (.compose (wByte1 w) (wByte0 w))
  else if opField w = 0x06#8 then
    checkReserved w (wHigh w == 0#16) (.wrchars (aField w).toNat (wByte1 w) (wByte0 w))
  else if opField w = 0x07#8 then
    checkReserved w (aField w == 0#8) (.scroll (wHigh w).toNat (wLow w).toNat)
  else if opField w = 0x08#8 then
    checkReserved w (w.extractLsb' 8 24 == 0#24) (.dtest (aField w).toNat (wByte0 w))
  else
    .error (.reservedOpcode (opField w))

/-- The encoder (R53): each operand in its field, every reserved field zero. An operand too wide for
its field keeps only its low bits; `Instr.wf` says when none is. -/
def encode : Instr → CmdWord
  | .regchain d c => ofFields 0x01#8 (BitVec.ofNat 8 d.number) ((BitVec.ofNat 8 c.number).setWidth 32)
  | .wrbit k b => ofFields 0x02#8 (BitVec.ofNat 8 k) ((BitVec.ofBool b).setWidth 32)
  | .wrframe k f => ofFields 0x03#8 (BitVec.ofNat 8 k) f
  | .chmask c => ofFields 0x04#8 c 0#32
  | .compose l r => ofFields 0x05#8 0#8 ((l ++ r).setWidth 32)
  | .wrchars k l r => ofFields 0x06#8 (BitVec.ofNat 8 k) ((l ++ r).setWidth 32)
  | .scroll m t => ofFields 0x07#8 0#8 (BitVec.ofNat 16 m ++ BitVec.ofNat 16 t)
  | .dtest k s => ofFields 0x08#8 (BitVec.ofNat 8 k) (s.setWidth 32)

/-- One row of spec/opcode_table.json: a word belongs to the row when its bits under `mask` are `pattern`. -/
structure OpcodeRow where
  mnemonic : String
  pattern : CmdWord
  mask : CmdWord
deriving DecidableEq, Repr

/-- The word belongs to the row. -/
def OpcodeRow.matchesWord (r : OpcodeRow) (w : CmdWord) : Bool := decide (w &&& r.mask = r.pattern)

/-- Some word would belong to both rows. -/
def OpcodeRow.overlaps (r r' : OpcodeRow) : Bool :=
  decide (r.pattern &&& r'.mask = r'.pattern &&& r.mask)

/-- spec/opcode_table.json, its `match` and `mask` columns. R67 says that the rows are disjoint; the
decoder above does not use the table, and the laws say that the two agree. -/
def opcodeTable : List OpcodeRow :=
  [⟨"REGCHAIN", 0x010000000000#48, 0xFF00FFFFFF00#48⟩,
   ⟨"WRBIT",    0x020000000000#48, 0xFF00FFFFFFFE#48⟩,
   ⟨"WRFRAME",  0x030000000000#48, 0xFF0000000000#48⟩,
   ⟨"CHMASK",   0x040000000000#48, 0xFF00FFFFFFFF#48⟩,
   ⟨"COMPOSE",  0x050000000000#48, 0xFFFFFFFF0000#48⟩,
   ⟨"WRCHARS",  0x060000000000#48, 0xFF00FFFF0000#48⟩,
   ⟨"SCROLL",   0x070000000000#48, 0xFFFF00000000#48⟩,
   ⟨"DTEST",    0x080000000000#48, 0xFF00FFFFFF00#48⟩]

/-- The command's mnemonic (R50). -/
def Instr.mnemonic : Instr → String
  | .regchain _ _ => "REGCHAIN"
  | .wrbit _ _ => "WRBIT"
  | .wrframe _ _ => "WRFRAME"
  | .chmask _ => "CHMASK"
  | .compose _ _ => "COMPOSE"
  | .wrchars _ _ _ => "WRCHARS"
  | .scroll _ _ => "SCROLL"
  | .dtest _ _ => "DTEST"

/-- The 48-bit word whose low `nbits` bits are those of `w` and whose other bits are 0. The table
numbers the bits of a command word as R52 does, bit 0 the least significant and bit 47 the most (log 19). -/
def tableWord (nbits w : Nat) : CmdWord := BitVec.ofNat 48 (w % 2 ^ nbits)

/-- What the decoder reads from a word given with the table's numbering of bits. -/
def decodeTableWord (nbits w : Nat) : Option Instr :=
  match decode (tableWord nbits w) with
  | .ok i => some i
  | .error _ => none

end Sys2Proof
end

