-- ==== Sys2Proof/Machine/Events.lean ====
section
/-! DEFINITION. The engine at the grain of one event (spec/00_scope.md R8; spec/10_state.md R17):
`startCommand` accepts a command and puts `SEQ` at its first event, `tick` emits the event `SEQ` stands at and
moves on. -/

namespace Sys2Proof.Machine

open Sys2Proof

/-- The position in a Protocol Frame after phase `ph` of wire position `pos`, or none after the last
event of the frame. -/
def nextInFrame (pos : Fin 36) (ph : Fin 4) : Option (Fin 36 × Fin 4) :=
  if h : ph.val + 1 < 4 then some (pos, ⟨ph.val + 1, h⟩)
  else if h : pos.val + 1 < 36 then some (⟨pos.val + 1, h⟩, 0)
  else none

/-- The engine accepts a command (R8): the checks, the commands that emit nothing, and otherwise the
position of the first event. -/
def startCommand (cfg : Config) (i : Instr) (s : State) : State :=
  match i with
  | .regchain d c =>
    if s.count = cfg.maxChains then s.complete (resBool false) else s.start (.reg d c 0)
  | .wrbit k b => s.withChain k fun _ => s.start (.bit k b 0)
  | .wrframe k f => s.withChain k fun _ => s.start (.frm k f 0 0)
  | .chmask c => s.complete (resMask (charMask cfg c))
  | .compose l r => s.complete (resFrame (composeFrame cfg l r))
  | .wrchars k l r => s.withChain k fun _ => s.start (.frm k (composeFrame cfg l r) 0 0)
  | .scroll m t =>
    if s.msg.read m = 0#8 then s.complete none
    else s.start (s.scrollFrameStart m t (Marquee.init s.count) 1)
  | .dtest k c =>
    s.withChain k fun _ =>
      if c.toNat ≤ cfg.fontMax.toNat then s.start (sweepStart k c.toNat) else s.complete none

/-- The state with `SEQ` at `p`. -/
def State.goTo (s : State) (p : SeqPos) : State := { s with seq := p }

/-- One event of `REGCHAIN d, c`; the slot is written after the last. -/
def tickReg (d c : Pin) (e : Fin 4) (s : State) : State :=
  let emitted := s.emit (regEvent d c e)
  if h : e.val + 1 < 4 then emitted.goTo (.reg d c ⟨e.val + 1, h⟩) else emitted.registered d c

/-- One event of a bare `WRBIT k, b`. -/
def tickBit (cfg : Config) (k : Nat) (ch : Chain) (b : Bool) (ph : Fin 4) (s : State) : State :=
  let emitted := s.emit (bitEvent cfg ch b ph)
  if h : ph.val + 1 < 4 then emitted.goTo (.bit k b ⟨ph.val + 1, h⟩)
  else (emitted.setDisp k none).complete none

/-- One event of a frame write of `f` to chain `k`. `inside` is the position after it within the frame;
`after` says what follows the last event, when `DISP[k]` has become `f`. -/
def tickFrame (cfg : Config) (k : Nat) (ch : Chain) (f : SegFrame) (pos : Fin 36) (ph : Fin 4)
    (inside : Fin 36 → Fin 4 → SeqPos) (after : State → State) (s : State) : State :=
  let emitted := s.emit (bitEvent cfg ch (wire f pos.val) ph)
  match nextInFrame pos ph with
  | some (pos', ph') => emitted.goTo (inside pos' ph')
  | none => after (emitted.setDisp k (some f))

/-- What follows the write to module `k` within an animation frame (steps 2 to 5 of R102): the write to
the module on its left, or the delay, with the cursors updated. -/
def afterModule (m t : Nat) (q : Marquee) (frame k : Nat) (s : State) : State :=
  match k with
  | 0 => s.goTo (.scr m t (q.advance s.msg m) frame .delay)
  | j + 1 => s.goTo (.scr m t q frame (.write j 0 0))

/-- The delay of an animation frame and the test that follows it (steps 5 and 6 of R102); `q` holds the
updated cursors. -/
def tickScrollDelay (m t : Nat) (q : Marquee) (frame : Nat) (s : State) : State :=
  let waited := s.emit (.dlyMs t)
  if q.lo < 0 then waited.complete none
  else waited.goTo (waited.scrollFrameStart m t q (frame + 1))

/-- The delay of a step of the sweep and the loop test that follows it (R112). -/
def tickSweepDelay (cfg : Config) (k c : Nat) (s : State) : State :=
  let waited := s.emit (.dlyMs cfg.tSweepMs)
  if c + 2 ≤ cfg.fontMax.toNat then waited.goTo (sweepStart k (c + 2)) else waited.complete none

/-- The engine emits the event that `SEQ` stands at and moves `SEQ` on (R17). An idle engine does
nothing. A position inside a write to a chain that is not registered has no pins to drive (log 13). -/
def tick (cfg : Config) (s : State) : Host.Outcome State Fault Refusal :=
  match s.seq with
  | .idle => .next s
  | .reg d c e => .next (tickReg d c e s)
  | .bit k b ph =>
    match s.reg[k]? with
    | some ch => .next (tickBit cfg k ch b ph s)
    | none => .fault (.emptySlot k)
  | .frm k f pos ph =>
    match s.reg[k]? with
    | some ch => .next (tickFrame cfg k ch f pos ph (.frm k f) (·.complete none) s)
    | none => .fault (.emptySlot k)
  | .scr m t q frame (.write k pos ph) =>
    match s.reg[k]? with
    | some ch =>
      .next (tickFrame cfg k ch (q.frameFor cfg s.msg m k) pos ph
        (fun pos' ph' => .scr m t q frame (.write k pos' ph')) (afterModule m t q frame k) s)
    | none => .fault (.emptySlot k)
  | .scr m t q frame .delay => .next (tickScrollDelay m t q frame s)
  | .swp k c (.write pos ph) =>
    match s.reg[k]? with
    | some ch =>
      .next (tickFrame cfg k ch (sweepFrame cfg c) pos ph (fun pos' ph' => .swp k c (.write pos' ph'))
        (·.goTo (.swp k c .delay)) s)
    | none => .fault (.emptySlot k)
  | .swp k c .delay => .next (tickSweepDelay cfg k c s)

/-- `n` ticks, stopping at a fault. -/
def ticks (cfg : Config) : Nat → State → Host.Outcome State Fault Refusal
  | 0, s => .next s
  | n + 1, s =>
    match tick cfg s with
    | .next s' => ticks cfg n s'
    | .fault r => .fault r
    | .refused r => .refused r

end Sys2Proof.Machine
end

