-- ==== Sys2Proof/Machine/Port.lean ====
section
/-! DEFINITION. What an idle engine takes from the host (spec/00_scope.md R8; spec/10_state.md R23;
log 6), at either grain. -/

namespace Sys2Proof.Machine

open Sys2Proof

/-- The host issues a command word: a valid one is its command, an `INVALID` one sets `FAULT` and has no
other effect (30_encoding.md R62, R63; 60_exceptions.md R125). -/
def issueWord (run : Instr → State → Host.Outcome State Fault Refusal) (w : CmdWord) (s : State) :
    Host.Outcome State Fault Refusal :=
  match decode w with
  | .ok i => run i s
  | .error _ => .next (s.raise (.invalidCommand w))

/-- The host's next input. With none the engine stays idle. `run` is how a command runs: whole (`exec`),
or up to its first event (`startCommand`). A new instance is in the state after reset (R140) and finds the
host's memory and the host's further inputs as they are (log 8). -/
def accept (run : Instr → State → Host.Outcome State Fault Refusal) (s : State) :
    Host.Outcome State Fault Refusal :=
  match s.inputs with
  | [] => .next s
  | .word w :: rest => issueWord run w { s with inputs := rest }
  | .command i :: rest => run i { s with inputs := rest }
  | .store a b :: rest => .next { s with inputs := rest, msg := s.msg.write a b }
  | .newInstance :: rest => .next { State.reset with msg := s.msg, inputs := rest }

/-- One step at the grain of one event (00_scope.md R8). -/
def eventStep (cfg : Config) (s : State) : Host.Outcome State Fault Refusal :=
  match s.seq with
  | .idle => accept (fun i s => .next (startCommand cfg i s)) s
  | _ => tick cfg s

end Sys2Proof.Machine
end

