-- ==== Sys2Proof/Machine/Step.lean ====
section
/-! DEFINITION. The step of the model (spec/00_scope.md R8): one whole command, or one event of a command
that is under way (log 4). -/

namespace Sys2Proof.Machine

open Sys2Proof

/-- An idle engine takes the host's next input and runs a command to its end; an engine in the middle of
a command emits the next event of it. From reset the second happens only in a `SCROLL` whose message
never ends (spec/42_sequencers.md R109). -/
def step (s : State) : Host.Outcome State Fault Refusal :=
  match s.seq with
  | .idle => accept exec s
  | _ => tick Config.engine s

/-- The engine is idle and the host's next input is the command word whose low `nbits` bits are those of
`w`; nothing else differs from `s`. It stands for the host issuing that command (log 6). -/
def State.withFetchWord (s : State) (nbits w : Nat) : State :=
  { s with seq := .idle, inputs := .word (tableWord nbits w) :: s.inputs }

end Sys2Proof.Machine
end

