-- ==== Sys2Proof/Machine/Observe.lean ====
section
/-! DEFINITION. What can be read off a trace, and the closed forms of the derived rules: the bits a
receiver samples (spec/40_pin_protocol.md R76), nominal delays (spec/70_reset_and_hazards.md R156), the
characters and events of a marquee (spec/42_sequencers.md R104, R106) and of a sweep (R113). The engine
reads none of this. -/

namespace Sys2Proof.Machine

open Sys2Proof

/-- The levels of data pin `d` at the edges of clock pin `c` towards level `edge`, in a run of events
that begins with the pins at `dl` and `cl`. An edge is a `SET` of the clock to the level it is not at. -/
def samples (edge : Level) (d c : Pin) : (dl cl : Level) → List Event → List Level
  | _, _, [] => []
  | dl, cl, .set p l :: es =>
    if p = c then
      if l ≠ cl ∧ l = edge then dl :: samples edge d c dl l es else samples edge d c dl l es
    else if p = d then samples edge d c l cl es
    else samples edge d c dl cl es
  | dl, cl, .cfg _ :: es => samples edge d c dl cl es
  | dl, cl, .dlyUs _ :: es => samples edge d c dl cl es
  | dl, cl, .dlyMs _ :: es => samples edge d c dl cl es

/-- The number of edges towards `edge` on a pin that is at level `l` and is then set to the levels of a
list. -/
def edgesTo (edge : Level) : (l : Level) → List Level → Nat
  | _, [] => 0
  | l, l' :: ls => (if l' ≠ l ∧ l' = edge then 1 else 0) + edgesTo edge l' ls

/-- The sum of the microsecond delays (R156). -/
def nominalUs : List Event → Nat
  | [] => 0
  | .dlyUs n :: es => n + nominalUs es
  | .cfg _ :: es => nominalUs es
  | .set _ _ :: es => nominalUs es
  | .dlyMs _ :: es => nominalUs es

/-- The sum of the millisecond delays (R156). -/
def nominalMs : List Event → Nat
  | [] => 0
  | .dlyMs n :: es => n + nominalMs es
  | .cfg _ :: es => nominalMs es
  | .set _ _ :: es => nominalMs es
  | .dlyUs _ :: es => nominalMs es

/-- The closed form of R104: in animation frame `F`, 1 or more, digit position `d` of the `2 * n` shows
the message character of index `(F - 1) - (last - d)` when that is in `0..L-1`, and a blank otherwise. -/
def closedChar (M : Memory) (m L n F d : Nat) : CharCode :=
  let i : Int := ((F : Int) - 1) - ((2 * (n : Int) - 1) - (d : Int))
  if 0 ≤ i ∧ i < (L : Int) then M.read (m + i.toNat) else blank

/-- The events of animation frame `F` (R106): the frames of the modules in descending order, then the
delay. -/
def closedFrameEvents (cfg : Config) (reg : List Chain) (M : Memory) (m t L F : Nat) : List Event :=
  ((List.range reg.length).reverse.flatMap fun k =>
    match reg[k]? with
    | some ch =>
      frameEvents cfg ch (composeFrame cfg (closedChar M m L reg.length F (2 * k))
        (closedChar M m L reg.length F (2 * k + 1)))
    | none => []) ++ [.dlyMs t]

/-- The events of a whole `SCROLL` of a message of `L` characters (R105, R106). -/
def closedScrollEvents (cfg : Config) (reg : List Chain) (M : Memory) (m t L : Nat) : List Event :=
  (List.range (scrollFrames L reg.length)).flatMap fun j =>
    closedFrameEvents cfg reg M m t L (j + 1)

/-- The events of a `DTEST` from character code `c` (R112, R113). -/
def closedSweepEvents (cfg : Config) (ch : Chain) (c : Nat) : List Event :=
  (List.range (sweepSteps cfg c)).flatMap fun j =>
    frameEvents cfg ch (sweepFrame cfg (c + 2 * j)) ++ [.dlyMs cfg.tSweepMs]

end Sys2Proof.Machine
end

