-- ==== Sys2Proof/Safety.lean ====
section
/-! DEFINITION. What the claims speak of: the invariant of the engine, and what a module can be said
to show. -/

namespace Sys2Proof.Machine

open Sys2Proof

/-- The cursors of a `SCROLL` of the message at `m` with `n` chains after `j` animation frames, that is
at the start of animation frame `j + 1` (42_sequencers.md R102). -/
def cursorsAfter (M : Memory) (m n : Nat) : Nat → Marquee
  | 0 => Marquee.init n
  | j + 1 => (cursorsAfter M m n j).advance M m

/-- Animation frame `frame` of the `SCROLL` of the message at `m` is one that the loop of R102 reaches:
the message is not empty, frames are numbered from 1, and no earlier frame was the last. -/
def scrollReaches (M : Memory) (m n frame : Nat) : Prop :=
  M.read m ≠ 0#8 ∧ 1 ≤ frame ∧ 0 ≤ (cursorsAfter M m n (frame - 1)).lo

/-- `SEQ` is a position of a command that the engine can have reached (R17, column "range"; R20). -/
def State.SeqOk (cfg : Config) (s : State) : Prop :=
  match s.seq with
  | .idle => True
  | .reg d c e =>
    s.count < cfg.maxChains ∧ (1 ≤ e.val → s.pinMode d = .output) ∧ (2 ≤ e.val → s.pinMode c = .output)
  | .bit k _ _ => k < s.count
  | .frm k _ _ _ => k < s.count
  | .scr m _ q frame (.write k _ _) =>
    k < s.count ∧ scrollReaches s.msg m s.count frame ∧ q = cursorsAfter s.msg m s.count (frame - 1)
  | .scr m _ q frame .delay =>
    scrollReaches s.msg m s.count frame ∧ q = cursorsAfter s.msg m s.count frame
  | .swp k c _ => k < s.count ∧ c ≤ cfg.fontMax.toNat

/-- The chain whose clock pin is high: a bit write to it has had its phase 1 and not its phase 3 (R75). -/
def SeqPos.clockHigh : SeqPos → Option Nat
  | .idle => none
  | .reg _ _ _ => none
  | .bit k _ ph => if 2 ≤ ph.val then some k else none
  | .frm k _ _ ph => if 2 ≤ ph.val then some k else none
  | .scr _ _ _ _ (.write k _ ph) => if 2 ≤ ph.val then some k else none
  | .scr _ _ _ _ .delay => none
  | .swp k _ (.write _ ph) => if 2 ≤ ph.val then some k else none
  | .swp _ _ .delay => none

/-- The level the clock pin of `ch` is at between two events (40_pin_protocol.md R76). -/
def State.clockLevel (s : State) (ch : Chain) : Level :=
  match s.seq.clockHigh with
  | some k => if (s.reg[k]?.map (·.clock)) = some ch.clock then .high else .low
  | none => .low

/-- The invariant of the engine: what holds after reset and is kept by every step. -/
structure State.Inv (cfg : Config) (s : State) : Prop where
  /-- The registry never exceeds its maximum (R13). -/
  count_le : s.count ≤ cfg.maxChains
  /-- `DISP[k]` exists for exactly the registered modules (R21). -/
  disp_length : s.disp.length = s.count
  /-- Host memory is in canonical form. -/
  msg_wf : s.msg.wf = true
  /-- The pin state is in canonical form. -/
  pins_wf : sparseWf PinState.untouched s.pins = true
  /-- The pin state is what the events of `TRACE` left (R14, R43). -/
  pins_replay : s.pins = replay s.trace
  /-- Both pins of a registered chain are outputs (R72(b)). -/
  registered_output : ∀ ch ∈ s.reg, s.pinMode ch.data = .output ∧ s.pinMode ch.clock = .output
  /-- The clock of a registered chain is low except inside a pulse (R76), unless the pin is also the
  data pin of a registered chain (R150). -/
  clock_level : ∀ ch ∈ s.reg, (∀ ch' ∈ s.reg, ch'.data ≠ ch.clock) →
    s.pinLevel ch.clock = .driven (s.clockLevel ch)
  /-- `SEQ` is a position the engine can have reached (R17). -/
  seq_ok : s.SeqOk cfg

/-- No fault reason has been raised: the premise of every claim about what a run shows (R18, R125). -/
abbrev State.clean (s : State) : Prop := s.fault = none

/-- All `2 * COUNT` registered pins, in the order of the slots (R22(d)). -/
def State.registeredPins (s : State) : List Pin := s.reg.flatMap fun ch => [ch.data, ch.clock]

/-- The pins that commands drive: the registered ones, and during a `REGCHAIN` also the two it registers. -/
def State.pinsInUse (s : State) : List Pin :=
  s.registeredPins ++
    match s.seq with
    | .reg d c _ => [d, c]
    | .idle | .bit .. | .frm .. | .scr .. | .swp .. => []

/-- The module that a bit write or a frame write is under way to: some of its events may have been emitted,
and not all have. -/
def SeqPos.writingTo : SeqPos → Option Nat
  | .idle => none
  | .reg _ _ _ => none
  | .bit k _ _ => some k
  | .frm k _ _ _ => some k
  | .scr _ _ _ _ (.write k _ _) => some k
  | .scr _ _ _ _ .delay => none
  | .swp k _ (.write _ _) => some k
  | .swp _ _ .delay => none

/-- What module `k` can be said to show: `DISP[k]`, as long as the pins in use are pairwise distinct (R22(d);
70_reset_and_hazards.md R150), no fault reason has been raised (R18), and no write to the module is under
way, when it may show a mixture of old and new (20_memory.md R40). That nothing is said from the acceptance
of the write on, and that the two pins of a `REGCHAIN` under way count as in use, are DESIGN CHOICES (log 17,
safe). -/
def State.shown (s : State) (k : Nat) : Option SegFrame :=
  if s.pinsInUse.Nodup ∧ s.clean ∧ s.seq.writingTo ≠ some k then s.disp[k]?.join else none

/-- Every pin but `p` and `q` is in the mode and at the level it was. -/
def SamePinsBut (s t : State) (p q : Pin) : Prop := ∀ r, r ≠ p → r ≠ q → t.pin r = s.pin r

/-- Between `s` and `t` nothing differs but the outputs `TRACE`, the pins, `DISP`, `RES` and the position
`SEQ`: the registry, the fault mark, every byte of host memory and the host's further inputs are as they
were. -/
def SameButOutputs (s t : State) : Prop :=
  t.reg = s.reg ∧ t.fault = s.fault ∧ t.msg = s.msg ∧ (∀ a, t.msg.read a = s.msg.read a) ∧
    t.inputs = s.inputs

/-- `SameButOutputs`, and neither a pin nor the trace nor `DISP` differs either. -/
def SameButResult (s t : State) : Prop :=
  SameButOutputs s t ∧ t.trace = s.trace ∧ t.pins = s.pins ∧ t.disp = s.disp

end Sys2Proof.Machine
end

