-- ==== Sys2Proof/Certificates/Slice0/Obligations.lean ====
section
/-! DEFINITION. The statements for the provers. Each docstring names the rules of spec/ it rests on. The
engine's open parameters are constants without a body, so a statement about `exec` or `step` holds for
every admissible choice of them; a statement that takes a `Config` says so outright. -/

open Sys2Proof Sys2Proof.Machine

/-! ## Encoding -/

/-- R67 (which the spec derives from R52 and R53): the decoder is total, the rows of the opcode table are
disjoint, and decoding the encoding of a command whose operands fit their fields gives the command back. -/
def Obligations.DecoderIsTotalAndInvertsEncoder : Prop :=
  (∀ w : CmdWord, (∃! i, decode w = .ok i) ∨ (∃ r, decode w = .error r)) ∧
  (opcodeTable.Pairwise fun r r' =>
    ∀ w, ¬ (r.matchesWord w = true ∧ r'.matchesWord w = true)) ∧
  (∀ i : Instr, i.wf = true → decode (encode i) = .ok i)

/-- 30_encoding.md section 2: a word that decodes is the encoding of what it decodes to, and that command's
operands fit their fields. -/
def Obligations.EncoderInvertsDecoder : Prop :=
  ∀ (w : CmdWord) (i : Instr), decode w = .ok i → i.wf = true ∧ encode i = w

/-- 30_encoding.md section 2 and opcode_table.json: a word decodes exactly when it belongs to a row of the
table, and then to a command with the row's mnemonic. -/
def Obligations.DecoderAgreesWithOpcodeTable : Prop :=
  ∀ w : CmdWord,
    (∀ r ∈ opcodeTable, r.matchesWord w = true → ∃ i, decode w = .ok i ∧ i.mnemonic = r.mnemonic) ∧
    (∀ i, decode w = .ok i → ∃ r ∈ opcodeTable, r.matchesWord w = true ∧ r.mnemonic = i.mnemonic)

/-- R62 (the spec's decision D14): a word with a reserved opcode is `INVALID`; it emits no event and sets
`FAULT`. -/
def Obligations.ReservedOpcodeIsInvalid : Prop :=
  ∀ (w : CmdWord) (rest : List HostInput) (s : State),
    opField w = 0x00#8 ∨ 0x09#8 ≤ opField w →
    decode w = .error (.reservedOpcode (opField w)) ∧
    (s.seq = .idle → s.inputs = .word w :: rest → s.fault = none →
      step s = .next { s with inputs := rest, fault := some (.invalidCommand w), res := none })

/-- R63 (the spec's decision D14): a word with a known opcode and a non-zero bit in a field that R53 lists
as reserved for it is `INVALID` and is treated the same. -/
def Obligations.ReservedFieldIsInvalid : Prop :=
  ∀ (w : CmdWord) (rest : List HostInput) (s : State),
    (opField w = 0x01#8 ∧ w.extractLsb' 8 24 ≠ 0#24) ∨
    (opField w = 0x02#8 ∧ w.extractLsb' 1 31 ≠ 0#31) ∨
    (opField w = 0x04#8 ∧ wField w ≠ 0#32) ∨
    (opField w = 0x05#8 ∧ (aField w ≠ 0#8 ∨ wHigh w ≠ 0#16)) ∨
    (opField w = 0x06#8 ∧ wHigh w ≠ 0#16) ∨
    (opField w = 0x07#8 ∧ aField w ≠ 0#8) ∨
    (opField w = 0x08#8 ∧ w.extractLsb' 8 24 ≠ 0#24) →
    decode w = .error (.reservedField (opField w)) ∧
    (s.seq = .idle → s.inputs = .word w :: rest → s.fault = none →
      step s = .next { s with inputs := rest, fault := some (.invalidCommand w), res := none })

/-- 95_test_vectors.md V1 to V9: one word of every command, written out from the layout of R53. -/
def Obligations.SampleWordsDecode : Prop :=
  decodeTableWord 48 0x010200000003 = some (.regchain (pinOfByte 2#8) (pinOfByte 3#8)) ∧
  decodeTableWord 48 0x020000000001 = some (.wrbit 0 true) ∧
  decodeTableWord 48 0x0300AB1234CD = some (.wrframe 0 0xAB1234CD#32) ∧
  decodeTableWord 48 0x046100000000 = some (.chmask 0x61#8) ∧
  decodeTableWord 48 0x050000004849 = some (.compose 0x48#8 0x49#8) ∧
  decodeTableWord 48 0x060000004849 = some (.wrchars 0 0x48#8 0x49#8) ∧
  decodeTableWord 48 0x0700010000FA = some (.scroll 0x0100 250) ∧
  decodeTableWord 48 0x080000000020 = some (.dtest 0 0x20#8)

/-! ## The step and the host -/

/-- R8 (00_scope.md section 5) and log 6: an idle engine whose next input is a word that decodes, or an
abstract command, runs that command, with the input taken. -/
def Obligations.StepRunsDecodedCommand : Prop :=
  ∀ (s : State) (rest : List HostInput) (i : Instr), s.seq = .idle →
    (∀ w, s.inputs = .word w :: rest → decode w = .ok i → step s = exec i { s with inputs := rest }) ∧
    (s.inputs = .command i :: rest → step s = exec i { s with inputs := rest }) ∧
    (∀ nbits w, decodeTableWord nbits w = some i → step (s.withFetchWord nbits w) = exec i s)

/-- 10_state.md section 8, 70_reset_and_hazards.md section 1, and log 6 and log 8 (the model's form of the
host's inputs): what an idle engine does with the inputs that are not commands. -/
def Obligations.HostInputsOnIdleEngine : Prop :=
  ∀ (s : State) (rest : List HostInput), s.seq = .idle →
    (s.inputs = [] → step s = .next s) ∧
    (∀ a b, s.inputs = .store a b :: rest →
      step s = .next { s with msg := s.msg.write a b, inputs := rest }) ∧
    (s.inputs = .newInstance :: rest →
      step s = .next { State.reset with msg := s.msg, inputs := rest })

/-- 20_memory.md section 1 (R32) and log 7: a byte the host stores is read back, every other byte is as it
was, and host memory stays in canonical form. -/
def Obligations.HostStoreReadsBack : Prop :=
  ∀ (s : State) (rest : List HostInput) (a : Nat) (b : BitVec 8), s.msg.wf = true → s.seq = .idle →
    s.inputs = .store a b :: rest →
    ∃ t, step s = .next t ∧ t.msg.wf = true ∧ t.msg.read a = b ∧
      (∀ a', a' ≠ a → t.msg.read a' = s.msg.read a') ∧ t = { s with msg := t.msg, inputs := rest }

/-! ## Reset and the invariant -/

/-- R24 (the spec's decision D15): the state after reset. -/
def Obligations.ResetState : Prop :=
  State.reset.count = 0 ∧ (∀ i : Nat, State.reset.reg[i]? = none) ∧ State.reset.seq = .idle ∧
  State.reset.res = none ∧ State.reset.fault = none ∧ State.reset.trace = [] ∧
  (∀ k : Nat, State.reset.disp[k]?.join = none) ∧
  (∀ p, State.reset.pinMode p = .unconfigured ∧ State.reset.pinLevel p = .unknown)

/-- The invariant of Safety.lean holds after reset (10_state.md section 9). -/
def Obligations.ResetMeetsInvariant : Prop :=
  ∀ inputs : List HostInput, State.Inv Config.engine { State.reset with inputs := inputs }

/-- Every step keeps the invariant: the registry stays within its maximum (R13), `DISP` has an entry per
module (R21), the pins are what the trace left (R14, R43), registered pins are outputs (R72(b)), clocks are
low outside a pulse (R76), host memory stays canonical, and `SEQ` stays a position the running command can
be at, with the cursors it has there (R17, R102). -/
def Obligations.StepKeepsInvariant : Prop :=
  ∀ s t : State, s.Inv Config.engine → step s = .next t → t.Inv Config.engine

/-- The same for the engine at the grain of one event (R8). -/
def Obligations.EventStepKeepsInvariant : Prop :=
  ∀ (cfg : Config) (s t : State), s.Inv cfg → eventStep cfg s = .next t → t.Inv cfg

/-- 00_scope.md R9 and 60_exceptions.md R120, R125: in a state that meets the invariant every step has a
next state, at either grain. -/
def Obligations.StepNeverStops : Prop :=
  ∀ s : State, s.Inv Config.engine →
    (∃ t, step s = .next t) ∧ (∃ t, eventStep Config.engine s = .next t)

/-! ## The registry -/

/-- R71: `REGCHAIN`, when the registry is full and when it is not, and its encoding. (The order of the four
events and the test that comes before them are the spec's decisions D10 and D11.) -/
def Obligations.RegchainAppendsChain : Prop :=
  (∀ (d c : Pin) (s : State), s.count = Config.engine.maxChains →
    ∃ t, exec (.regchain d c) s = .next t ∧ SameButResult s t ∧ t.res = some 0#32 ∧ t.seq = .idle) ∧
  (∀ (d c : Pin) (s : State), s.count ≠ Config.engine.maxChains →
    sparseWf PinState.untouched s.pins = true →
    ∃ t, exec (.regchain d c) s = .next t ∧
      t.trace = s.trace ++ [.cfg d, .cfg c, .set d .low, .set c .low] ∧
      t.pin d = ⟨.output, .driven .low⟩ ∧ t.pin c = ⟨.output, .driven .low⟩ ∧ SamePinsBut s t d c ∧
      t.reg = s.reg ++ [⟨d, c⟩] ∧ t.count = s.count + 1 ∧ t.disp = s.disp ++ [none] ∧
      t.res = some 1#32 ∧ t.seq = .idle ∧ t.fault = s.fault ∧ t.msg = s.msg ∧ t.inputs = s.inputs) ∧
  (∀ d c : Pin, d.number < 256 → c.number < 256 →
    opField (encode (.regchain d c)) = 0x01#8 ∧ (aField (encode (.regchain d c))).toNat = d.number ∧
    (wByte0 (encode (.regchain d c))).toNat = c.number)

/-- R121: a full registry changes nothing, emits nothing, returns 0, and records nothing. -/
def Obligations.FullRegistryIsSilent : Prop :=
  ∀ (d c : Pin) (s : State), s.count = Config.engine.maxChains → s.seq = .idle →
    exec (.regchain d c) s = .next { s with res := some 0#32 }

/-- 10_state.md section 2 (R11) and section 3 (R13): a written slot never changes, the registry grows by at
most one slot, only in a successful `REGCHAIN`, and never beyond its maximum. -/
def Obligations.RegistrySlotsAreWrittenOnce : Prop :=
  ∀ (i : Instr) (s t : State), exec i s = .next t →
    (∀ k, k < s.count → t.reg[k]? = s.reg[k]?) ∧
    (t.count = s.count ∨
      (t.count = s.count + 1 ∧ s.count ≠ Config.engine.maxChains ∧ t.res = some 1#32 ∧
        ∃ d c, i = .regchain d c)) ∧
    (s.count ≤ Config.engine.maxChains → t.count ≤ Config.engine.maxChains)

/-- 70_reset_and_hazards.md R147, 40_pin_protocol.md R72(c): a pin that a `REGCHAIN` has configured and not yet
driven is an output at the level it was at, which for a fresh pin is unknown. One clause for each of the three
positions inside the command; the two pins may be equal. -/
def Obligations.ClockLevelUnknownDuringRegistration : Prop :=
  ∀ (cfg : Config) (d c : Pin) (s : State), s.count ≠ cfg.maxChains →
    sparseWf PinState.untouched s.pins = true →
    (∃ t, ticks cfg 1 (startCommand cfg (.regchain d c) s) = .next t ∧ t.seq = .reg d c 1 ∧
      t.trace = s.trace ++ [.cfg d] ∧ t.pinMode d = .output ∧ t.pinLevel d = s.pinLevel d ∧
      (s.pin d = .untouched → t.pin d = ⟨.output, .unknown⟩)) ∧
    (∃ t, ticks cfg 2 (startCommand cfg (.regchain d c) s) = .next t ∧ t.seq = .reg d c 2 ∧
      t.trace = s.trace ++ [.cfg d, .cfg c] ∧
      (∀ p, p = d ∨ p = c → t.pinMode p = .output ∧ t.pinLevel p = s.pinLevel p ∧
        (s.pin p = .untouched → t.pin p = ⟨.output, .unknown⟩))) ∧
    (∃ t, ticks cfg 3 (startCommand cfg (.regchain d c) s) = .next t ∧ t.seq = .reg d c 3 ∧
      t.trace = s.trace ++ [.cfg d, .cfg c, .set d .low] ∧ t.pin d = ⟨.output, .driven .low⟩ ∧
      (c ≠ d → t.pinMode c = .output ∧ t.pinLevel c = s.pinLevel c ∧
        (s.pin c = .untouched → t.pin c = ⟨.output, .unknown⟩)))

/-! ## The Pin Protocol Engine -/

/-- R75: `WRBIT`, for a registered chain and for an index out of range, and its encoding. -/
def Obligations.WrbitSendsOneBit : Prop :=
  (∀ (k : Nat) (b : Bool) (s : State) (ch : Chain), s.reg[k]? = some ch →
    sparseWf PinState.untouched s.pins = true →
    ∃ t, exec (.wrbit k b) s = .next t ∧
      t.trace = s.trace ++ [.set ch.data (lvl b), .set ch.clock .high,
        .dlyUs Config.engine.tPulseUs, .set ch.clock .low] ∧
      (∀ p, t.pinMode p = s.pinMode p) ∧ t.pinLevel ch.clock = .driven .low ∧
      (ch.data ≠ ch.clock → t.pinLevel ch.data = .driven (lvl b)) ∧ SamePinsBut s t ch.data ch.clock ∧
      t.disp = s.disp.set k none ∧ t.res = none ∧ t.seq = .idle ∧ SameButOutputs s t) ∧
  (∀ (k : Nat) (b : Bool) (s : State), s.count ≤ k →
    exec (.wrbit k b) s = .next { s with
      fault := some (s.fault.getD (.chainIndexOutOfRange k)), res := none, seq := .idle }) ∧
  (∀ (k : Nat) (b : Bool), k < 256 →
    opField (encode (.wrbit k b)) = 0x02#8 ∧ (aField (encode (.wrbit k b))).toNat = k ∧
    wBit0 (encode (.wrbit k b)) = b)

/-- R77: `WRFRAME`, for a registered chain and for an index out of range, and its encoding. Both pins of
the chain are low afterwards (R78). -/
def Obligations.WrframeSendsProtocolFrame : Prop :=
  (∀ (k : Nat) (f : SegFrame) (s : State) (ch : Chain), s.reg[k]? = some ch →
    sparseWf PinState.untouched s.pins = true →
    ∃ t, exec (.wrframe k f) s = .next t ∧
      t.trace = s.trace ++ ((List.range 36).flatMap fun p =>
        [.set ch.data (lvl (wire f p)), .set ch.clock .high, .dlyUs Config.engine.tPulseUs,
          .set ch.clock .low]) ∧
      (∀ p, t.pinMode p = s.pinMode p) ∧ t.pinLevel ch.clock = .driven .low ∧
      t.pinLevel ch.data = .driven .low ∧ SamePinsBut s t ch.data ch.clock ∧
      t.disp = s.disp.set k (some f) ∧ t.res = none ∧ t.seq = .idle ∧ SameButOutputs s t) ∧
  (∀ (k : Nat) (f : SegFrame) (s : State), s.count ≤ k →
    exec (.wrframe k f) s = .next { s with
      fault := some (s.fault.getD (.chainIndexOutOfRange k)), res := none, seq := .idle }) ∧
  (∀ (k : Nat) (f : SegFrame), k < 256 →
    opField (encode (.wrframe k f)) = 0x03#8 ∧ (aField (encode (.wrframe k f))).toNat = k ∧
    wField (encode (.wrframe k f)) = f)

/-- 40_pin_protocol.md R78: how many events of each kind one `WRFRAME` emits, and that a second one with
the same frame emits the same. -/
def Obligations.WrframeEventCounts : Prop :=
  ∀ (k : Nat) (f : SegFrame) (s : State) (ch : Chain), s.reg[k]? = some ch →
    ∃ t u es, exec (.wrframe k f) s = .next t ∧ t.trace = s.trace ++ es ∧
      exec (.wrframe k f) t = .next u ∧ u.trace = t.trace ++ es ∧
      es.length = 144 ∧ es.count (.dlyUs Config.engine.tPulseUs) = 36 ∧
      nominalUs es = 36 * Config.engine.tPulseUs ∧ nominalMs es = 0 ∧
      (ch.data ≠ ch.clock →
        es.count (.set ch.data .high) + es.count (.set ch.data .low) = 36 ∧
        es.count (.set ch.clock .high) = 36 ∧ es.count (.set ch.clock .low) = 36 ∧
        ∀ dl, (samples .high ch.data ch.clock dl .low es).length = 36)

/-- 40_pin_protocol.md R76, 30_encoding.md R57: on a chain with two different pins a receiver samples the
36 bits of the Protocol Frame in wire order, and the same bits on the rising as on the falling edge. -/
def Obligations.ReceiverSamplesProtocolFrame : Prop :=
  ∀ (cfg : Config) (ch : Chain) (f : SegFrame) (dl : Level), ch.data ≠ ch.clock →
    samples .high ch.data ch.clock dl .low (frameEvents cfg ch f) =
      (List.range 36).map (fun p => lvl (wire f p)) ∧
    samples .low ch.data ch.clock dl .low (frameEvents cfg ch f) =
      (List.range 36).map (fun p => lvl (wire f p))

/-- 70_reset_and_hazards.md R150: a frame written to chain `ch` gives no clock edge to a module whose clock pin
is neither pin of `ch`. Where the clock pin is shared, the other module takes 36 bits, each the level its own
data pin is at. Where the other module's clock pin is the data pin of `ch`, the changes of the wire bits are
clock edges for it; the level it samples is that of its own data pin, which is low at all of them if that is
the clock pin of `ch` and starts low. -/
def Obligations.DistinctPinsIsolateChains : Prop :=
  ∀ (cfg : Config) (ch other : Chain) (f : SegFrame) (dl cl : Level) (edge : Level),
    (other.clock ≠ ch.data → other.clock ≠ ch.clock →
      samples edge other.data other.clock dl cl (frameEvents cfg ch f) = []) ∧
    (other.clock = ch.clock → ch.data ≠ ch.clock → other.data ≠ ch.data → other.data ≠ ch.clock →
      samples edge other.data other.clock dl .low (frameEvents cfg ch f) = List.replicate 36 dl) ∧
    (other.clock = ch.data → ch.data ≠ ch.clock → other.data ≠ ch.data → other.data ≠ ch.clock →
      samples edge other.data other.clock dl cl (frameEvents cfg ch f) =
        List.replicate (edgesTo edge cl ((List.range 36).map fun p => lvl (wire f p))) dl) ∧
    (other.clock = ch.data → ch.data ≠ ch.clock → other.data = ch.clock →
      samples edge other.data other.clock .low cl (frameEvents cfg ch f) =
        List.replicate (edgesTo edge cl ((List.range 36).map fun p => lvl (wire f p))) .low)

/-- R58 (which the spec derives from R57): the wire function, the Protocol Frame as a number, that it
determines the frame, and the number of 1 bits sent. -/
def Obligations.WireFunctionIsProtocolFrame : Prop :=
  (∀ f : SegFrame, wire f 0 = true ∧ wire f 1 = false ∧
    (∀ p, 2 ≤ p → p ≤ 33 → wire f p = f.getLsbD (p - 2)) ∧ wire f 34 = false ∧ wire f 35 = false) ∧
  (∀ f : SegFrame, protocolFrame f = (f.setWidth 36 <<< 2) ||| 1#36 ∧
    ∀ p, p < 36 → (protocolFrame f).getLsbD p = wire f p) ∧
  (∀ f f' : SegFrame, (∀ p, p < 36 → wire f p = wire f' p) ↔ f = f') ∧
  (∀ f : SegFrame, (List.range 36).countP (wire f) = 1 + (List.range 32).countP f.getLsbD)

/-! ## The Character Compositor -/

/-- R60: frame assembly as an OR of three disjoint pieces, as their sum, and as a concatenation. -/
def Obligations.FrameOfAssemblesPieces : Prop :=
  ∀ ml mr : Mask,
    let left : BitVec 32 := ml.setWidth 32 <<< 8
    let low : BitVec 32 := (mr.extractLsb' 0 8).setWidth 32
    let high : BitVec 32 := (mr.extractLsb' 8 8).setWidth 32 <<< 24
    frameOf ml mr = left ||| low ||| high ∧ frameOf ml mr = left + low + high ∧
    frameOf ml mr = mr.extractLsb' 8 8 ++ ml ++ mr.extractLsb' 0 8 ∧
    left &&& low = 0#32 ∧ left &&& high = 0#32 ∧ low &&& high = 0#32 ∧
    left.toNat = ml.toNat * 2 ^ 8 ∧ high.toNat = (mr.extractLsb' 8 8).toNat * 2 ^ 24

/-- R61: disassembly undoes assembly, and assembly is a bijection. -/
def Obligations.FrameOfIsBijection : Prop :=
  (∀ f : SegFrame, leftOf f = f.extractLsb' 8 16 ∧
    rightOf f = f.extractLsb' 24 8 ++ f.extractLsb' 0 8) ∧
  (∀ ml mr : Mask, leftOf (frameOf ml mr) = ml ∧ rightOf (frameOf ml mr) = mr) ∧
  (∀ f : SegFrame, frameOf (leftOf f) (rightOf f) = f) ∧
  Function.Bijective fun p : Mask × Mask => frameOf p.1 p.2

/-- R85: `CHMASK` and `COMPOSE` write only `RES`, and what they write depends on the operands alone. -/
def Obligations.CompositorCommandsArePure : Prop :=
  (∀ c : CharCode, ∃ v, ∀ s : State, s.seq = .idle → exec (.chmask c) s = .next { s with res := some v }) ∧
  (∀ l r : CharCode, ∃ v, ∀ s : State, s.seq = .idle →
    exec (.compose l r) s = .next { s with res := some v })

/-- R86: `CHMASK`, the function `CharMask`, and the encoding. (The fold and its place before the range test
are the spec's decision D9.) -/
def Obligations.ChmaskReturnsMask : Prop :=
  (∀ (c : CharCode) (s : State), exec (.chmask c) s =
    .next { s with res := some ((charMask Config.engine c).setWidth 32), seq := .idle }) ∧
  (∀ (cfg : Config) (c u : CharCode),
    u = (if 0x61#8 ≤ c ∧ c ≤ 0x7A#8 then c - 0x20#8 else c) →
    (u < cfg.fontMin ∨ cfg.fontMax < u → charMask cfg c = 0x0000#16) ∧
    (cfg.fontMin ≤ u → u ≤ cfg.fontMax → charMask cfg c = cfg.font u)) ∧
  (∀ c : CharCode, opField (encode (.chmask c)) = 0x04#8 ∧ aField (encode (.chmask c)) = c)

/-- R87, (a) to (e), which the spec derives from R86. -/
def Obligations.CharMaskProperties : Prop :=
  (∀ (cfg : Config) (c : CharCode), 0x61#8 ≤ c → c ≤ 0x7A#8 → charMask cfg c = charMask cfg (c - 0x20#8)) ∧
  (∀ (cfg : Config) (c : CharCode), foldCase c < cfg.fontMin ∨ cfg.fontMax < foldCase c →
    charMask cfg c = 0#16) ∧
  (∀ (cfg : Config) (c : CharCode), c ≤ 0x1F#8 ∨ 0x7F#8 ≤ c → charMask cfg c = 0#16) ∧
  (∀ (cfg cfg' : Config), cfg.fontMin = cfg'.fontMin → cfg.fontMax = cfg'.fontMax →
    (∀ u, cfg.fontMin ≤ u → u ≤ cfg.fontMax → ¬ (0x61#8 ≤ u ∧ u ≤ 0x7A#8) → cfg.font u = cfg'.font u) →
    ∀ c, charMask cfg c = charMask cfg' c) ∧
  (∀ c : CharCode, (0x7B#8 ≤ c ∧ c ≤ 0x7E#8) ∨ (0x5B#8 ≤ c ∧ c ≤ 0x60#8) → foldCase c = c) ∧
  (∃ (cfg : Config) (c : CharCode), cfg.fontMin ≤ c ∧ c ≤ cfg.fontMax ∧ charMask cfg c = 0#16) ∧
  (∀ (c : CharCode) (s s' : State), ∃ t t', exec (.chmask c) s = .next t ∧ exec (.chmask c) s' = .next t' ∧
    t.res = t'.res)

/-- R88: `COMPOSE`, the function `Compose`, and the encoding. -/
def Obligations.ComposeReturnsFrame : Prop :=
  (∀ (l r : CharCode) (s : State), exec (.compose l r) s =
    .next { s with res := some (composeFrame Config.engine l r), seq := .idle }) ∧
  (∀ (cfg : Config) (l r : CharCode),
    composeFrame cfg l r = frameOf (charMask cfg l) (charMask cfg r) ∧
    composeFrame cfg l r = ((charMask cfg l).setWidth 32 <<< 8) |||
      ((charMask cfg r).extractLsb' 0 8).setWidth 32 |||
      (((charMask cfg r).extractLsb' 8 8).setWidth 32 <<< 24)) ∧
  (∀ l r : CharCode, opField (encode (.compose l r)) = 0x05#8 ∧
    wByte1 (encode (.compose l r)) = l ∧ wByte0 (encode (.compose l r)) = r)

/-- R89, (a) to (e), which the spec derives from R61, R86 and R88. -/
def Obligations.ComposeProperties : Prop :=
  (∀ (cfg : Config) (l r : CharCode), leftOf (composeFrame cfg l r) = charMask cfg l ∧
    rightOf (composeFrame cfg l r) = charMask cfg r) ∧
  (∀ (cfg : Config) (l r : CharCode), foldCase l < cfg.fontMin ∨ cfg.fontMax < foldCase l →
    foldCase r < cfg.fontMin ∨ cfg.fontMax < foldCase r → composeFrame cfg l r = 0x00000000#32) ∧
  (∀ (cfg : Config) (l r r' : CharCode) (i : Nat), 8 ≤ i → i < 24 →
    (composeFrame cfg l r).getLsbD i = (composeFrame cfg l r').getLsbD i) ∧
  (∀ (cfg : Config) (l l' r : CharCode) (i : Nat), i < 8 ∨ 24 ≤ i →
    (composeFrame cfg l r).getLsbD i = (composeFrame cfg l' r).getLsbD i) ∧
  (∃ (cfg : Config) (l r : CharCode),
    (charMask cfg l).extractLsb' 8 8 = (charMask cfg l).extractLsb' 0 8 ∧
    (charMask cfg r).extractLsb' 8 8 = (charMask cfg r).extractLsb' 0 8 ∧
    composeFrame cfg l r ≠ composeFrame cfg r l) ∧
  (∀ (cfg : Config) (l r : CharCode), 0x61#8 ≤ l → l ≤ 0x7A#8 → 0x61#8 ≤ r → r ≤ 0x7A#8 →
    composeFrame cfg l r = composeFrame cfg (l - 0x20#8) (r - 0x20#8))

/-- R91: `WRCHARS`, for a registered chain and for an index out of range, and its encoding. -/
def Obligations.WrcharsSendsComposedFrame : Prop :=
  (∀ (k : Nat) (l r : CharCode) (s : State),
    exec (.wrchars k l r) s = exec (.wrframe k (composeFrame Config.engine l r)) s) ∧
  (∀ (k : Nat) (l r : CharCode) (s : State) (ch : Chain), s.reg[k]? = some ch →
    sparseWf PinState.untouched s.pins = true → s.disp.length = s.count →
    ∃ t es f, exec (.wrchars k l r) s = .next t ∧ t.trace = s.trace ++ es ∧ es.length = 144 ∧
      t.disp = s.disp.set k (some f) ∧ t.disp[k]? = some (some f) ∧
      leftOf f = charMask Config.engine l ∧ rightOf f = charMask Config.engine r ∧
      (∀ p, t.pinMode p = s.pinMode p) ∧ SamePinsBut s t ch.data ch.clock ∧ t.res = none ∧
      t.seq = .idle ∧ SameButOutputs s t) ∧
  (∀ (k : Nat) (l r : CharCode) (s : State), s.count ≤ k →
    exec (.wrchars k l r) s = .next { s with
      fault := some (s.fault.getD (.chainIndexOutOfRange k)), res := none, seq := .idle }) ∧
  (∀ (k : Nat) (l r : CharCode), k < 256 →
    opField (encode (.wrchars k l r)) = 0x06#8 ∧ (aField (encode (.wrchars k l r))).toNat = k ∧
    wByte1 (encode (.wrchars k l r)) = l ∧ wByte0 (encode (.wrchars k l r)) = r)

/-! ## Faults -/

/-- R125 (the spec's decision D31): what raising a fault reason does, for an index out of range and for an
invalid word: the mark is set and keeps its first reason, `RES` is not valid, `SEQ` is `IDLE`, everything
else is unchanged, and the engine takes the next input. -/
def Obligations.RaisingHasNoOtherEffect : Prop :=
  (∀ (k : Nat) (i : Instr) (s : State), s.count ≤ k →
    ((∃ b, i = .wrbit k b) ∨ (∃ f, i = .wrframe k f) ∨ (∃ l r, i = .wrchars k l r) ∨
      (∃ c, i = .dtest k c)) →
    ∃ t, exec i s = .next t ∧ SameButResult s { t with fault := s.fault } ∧ t.res = none ∧
      t.seq = .idle ∧ (s.fault = none → t.fault = some (.chainIndexOutOfRange k)) ∧
      (∀ r, s.fault = some r → t.fault = some r) ∧ step t = accept exec t) ∧
  (∀ (w : CmdWord) (e : Reject) (rest : List HostInput) (s : State), s.seq = .idle →
    s.inputs = .word w :: rest → decode w = .error e →
    ∃ t, step s = .next t ∧ SameButResult { s with inputs := rest } { t with fault := s.fault } ∧
      t.res = none ∧ t.seq = .idle ∧ (s.fault = none → t.fault = some (.invalidCommand w)) ∧
      (∀ r, s.fault = some r → t.fault = some r) ∧ step t = accept exec t)

/-- 10_state.md R18, 60_exceptions.md R124: no command clears the mark, the only reason a command sets is
an index that is out of range, and a new instance starts without one. -/
def Obligations.FaultMarkIsSticky : Prop :=
  (∀ (i : Instr) (s t : State), exec i s = .next t →
    (∀ r, s.fault = some r → t.fault = some r) ∧
    (s.fault = none → t.fault = none ∨
      ∃ k, t.fault = some (.chainIndexOutOfRange k) ∧ s.count ≤ k ∧ t.trace = s.trace)) ∧
  (∀ (s t : State) (rest : List HostInput), s.seq = .idle → s.inputs = .newInstance :: rest →
    step s = .next t → t.fault = none)

/-! ## The marquee -/

/-- R107, R123: an empty message performs no animation frame and emits nothing, not even a delay. -/
def Obligations.EmptyScrollDoesNothing : Prop :=
  ∀ (m t : Nat) (s : State), s.msg.read m = 0#8 → s.seq = .idle →
    exec (.scroll m t) s = .next { s with res := none }

/-- 42_sequencers.md section 2 (R102, R104, R105, R106): a `SCROLL` of a message of `L` characters emits
exactly the events of the closed form, leaves every module blank and every registered pin low, and changes
nothing else. -/
def Obligations.ScrollEmitsClosedForm : Prop :=
  ∀ (m t L : Nat) (s : State), s.msg.messageLength m = some L → L ≠ 0 → s.disp.length = s.count →
    ∃ u, exec (.scroll m t) s = .next u ∧
      u.trace = s.trace ++ closedScrollEvents Config.engine s.reg s.msg m t L ∧
      u.trace.length = s.trace.length + (L + 2 * s.count + 1) * (144 * s.count + 1) ∧
      u.pins = (closedScrollEvents Config.engine s.reg s.msg m t L).foldl applyEvent s.pins ∧
      (sparseWf PinState.untouched s.pins = true →
        (∀ p, u.pinMode p = s.pinMode p) ∧
        (∀ ch ∈ s.reg, u.pinLevel ch.data = .driven .low ∧ u.pinLevel ch.clock = .driven .low) ∧
        (∀ p, p ∉ s.registeredPins → u.pin p = s.pin p)) ∧
      u.disp = List.replicate s.count (some 0x00000000#32) ∧ u.res = none ∧ u.seq = .idle ∧
      SameButOutputs s u

/-- 42_sequencers.md R104: the cursors of R102 show the closed form; the two padding tests are tests on the
message index, which in between is in `0..L`. -/
def Obligations.CursorsShowClosedForm : Prop :=
  ∀ (M : Memory) (m L n F d : Nat), M.messageLength m = some L → L ≠ 0 → 1 ≤ F →
    F ≤ L + 2 * n + 1 → d < 2 * n →
    let q := cursorsAfter M m n (F - 1)
    let i : Int := ((F : Int) - 1) - ((2 * (n : Int) - 1) - (d : Int))
    q.shows M m d = closedChar M m L n F d ∧ ((d : Int) ≤ q.hi ↔ i < 0) ∧ (q.lo ≤ (d : Int) ↔ L < i) ∧
    (q.hi < d → (d : Int) < q.lo → (q.cur : Int) + d + 1 - q.lo = i ∧ 0 ≤ i ∧ i ≤ L)

/-- R105 (which the spec derives from R102): the number of animation frames; when the null is reached; how
`lo` falls; the last two frames are blank; the scenario's five frames. -/
def Obligations.ScrollFrameCount : Prop :=
  (∀ (m t L : Nat) (s : State), s.msg.messageLength m = some L → L ≠ 0 →
    ∃ u es, exec (.scroll m t) s = .next u ∧ u.seq = .idle ∧ u.trace = s.trace ++ es ∧
      es.count (.dlyMs t) = L + 2 * s.count + 1) ∧
  (∀ (M : Memory) (m L n j : Nat), M.messageLength m = some L → L ≠ 0 →
    (j ≤ L → ((cursorsAfter M m n j).ex = true ↔ j = L) ∧ (cursorsAfter M m n j).cur = j ∧
      (cursorsAfter M m n j).lo = 2 * n) ∧
    (L ≤ j → j ≤ L + 2 * n + 1 → (cursorsAfter M m n j).lo = 2 * (n : Int) - ((j : Int) - L))) ∧
  (∀ (M : Memory) (m L n d : Nat), M.messageLength m = some L → L ≠ 0 → d < 2 * n →
    (cursorsAfter M m n (L + 2 * n - 1)).shows M m d = blank ∧
    (cursorsAfter M m n (L + 2 * n)).shows M m d = blank) ∧
  (∀ (s : State) (m t : Nat), s.msg.messageLength m = some 2 → s.count = 1 →
    ∃ u es, exec (.scroll m t) s = .next u ∧ u.trace = s.trace ++ es ∧ es.count (.dlyMs t) = 5)

/-- R108 (the spec's decision D22): with no chain registered a message of `L` characters gives `L + 1`
delays and no pin event. -/
def Obligations.ScrollWithoutChains : Prop :=
  ∀ (m t L : Nat) (s : State), s.msg.messageLength m = some L → L ≠ 0 → s.reg = [] →
    (Marquee.init s.count).hi = -2 ∧ (Marquee.init s.count).lo = 0 ∧
    exec (.scroll m t) s =
      .next { s with trace := s.trace ++ List.replicate (L + 1) (.dlyMs t), res := none, seq := .idle }

/-- 20_memory.md R32: what a `SCROLL` sends depends on the message up to its null and on nothing beyond it:
two host memories that agree so far give the same events. -/
def Obligations.ScrollReadsOnlyTheMessage : Prop :=
  ∀ (m t L : Nat) (s : State) (M : Memory), s.msg.messageLength m = some L →
    (∀ i, i ≤ L → M.read (m + i) = s.msg.read (m + i)) →
    ∃ u v, exec (.scroll m t) s = .next u ∧ exec (.scroll m t) { s with msg := M } = .next v ∧
      v = { u with msg := M }

/-- R109 (a hang and no fault by the spec's decision D23): on a message with no null `SCROLL` never ends:
the exhaustion mark is never set and `lo` never falls; the engine is busy after any number of further
steps, each of which emits one event, with no fault and no result; and after every `F` animation frames the
events are those of the closed form. -/
def Obligations.UnterminatedScrollNeverEnds : Prop :=
  ∀ (m t : Nat) (s : State), (∀ i, s.msg.read (m + i) ≠ 0#8) →
    (∀ j, (cursorsAfter s.msg m s.count j).ex = false ∧ (cursorsAfter s.msg m s.count j).lo = 2 * s.count) ∧
    ∃ u, exec (.scroll m t) s = .next u ∧ u.trace = s.trace ∧
      (∀ n, ∃ v, Sys2Proof.core.run n u = .next v ∧ v.seq ≠ .idle ∧ v.res = none ∧
        v.trace.length = s.trace.length + n ∧ SameButOutputs s v) ∧
      (∀ F, ∃ v, Sys2Proof.core.run (F * (144 * s.count + 1)) u = .next v ∧
        v.trace = s.trace ++ (List.range F).flatMap fun j =>
          closedFrameEvents Config.engine s.reg s.msg m t F (j + 1))

/-! ## The diagnostic sweep -/

/-- R112: `DTEST`, for a registered chain and for an index out of range, and its encoding. (The loop test
and the wait after the last pair are the spec's decision D25. The right digit of a pair that ends past
`FONT_MAX` is blank by R113(b), log 21.) -/
def Obligations.DtestSweepsPairs : Prop :=
  (∀ (k : Nat) (c : CharCode) (s : State) (ch : Chain), s.reg[k]? = some ch →
    ∃ t, exec (.dtest k c) s = .next t ∧
      t.trace = s.trace ++ closedSweepEvents Config.engine ch c.toNat ∧
      t.pins = (closedSweepEvents Config.engine ch c.toNat).foldl applyEvent s.pins ∧
      (sparseWf PinState.untouched s.pins = true →
        (∀ p, t.pinMode p = s.pinMode p) ∧ SamePinsBut s t ch.data ch.clock) ∧
      t.disp = (if Config.engine.fontMax < c then s.disp
        else s.disp.set k (some (sweepFrame Config.engine
          (c.toNat + 2 * (sweepSteps Config.engine c.toNat - 1))))) ∧
      t.res = none ∧ t.seq = .idle ∧ SameButOutputs s t) ∧
  (∀ (cfg : Config) (c j : Nat), j < sweepSteps cfg c ↔ c + 2 * j ≤ cfg.fontMax.toNat) ∧
  (∀ (cfg : Config) (c : Nat), c ≤ cfg.fontMax.toNat →
    (c + 1 ≤ cfg.fontMax.toNat ∨ ¬ (0x60#8 ≤ cfg.fontMax ∧ cfg.fontMax ≤ 0x79#8) →
      sweepFrame cfg c = composeFrame cfg (BitVec.ofNat 8 c) (BitVec.ofNat 8 (c + 1))) ∧
    (c = cfg.fontMax.toNat →
      sweepFrame cfg c = frameOf (charMask cfg (BitVec.ofNat 8 c)) 0#16)) ∧
  (∀ (k : Nat) (c : CharCode) (s : State), s.count ≤ k →
    exec (.dtest k c) s = .next { s with
      fault := some (s.fault.getD (.chainIndexOutOfRange k)), res := none, seq := .idle }) ∧
  (∀ (k : Nat) (c : CharCode), k < 256 →
    opField (encode (.dtest k c)) = 0x08#8 ∧ (aField (encode (.dtest k c))).toNat = k ∧
    wByte0 (encode (.dtest k c)) = c)

/-- 42_sequencers.md R113 (a) to (d), for a sweep from code `c`: 145 events a step; no character code of the
sweep exceeds 0x7F; when `FONT_MAX - c` is even the last pair starts with `FONT_MAX`, and its right digit is
blank, whatever `FONT_MAX` is (log 21); lower-case letters show as upper-case; pairs below `FONT_MIN` are
blank. -/
def Obligations.DtestStepProperties : Prop :=
  ∀ (cfg : Config) (ch : Chain) (c : Nat),
    (closedSweepEvents cfg ch c).length = 145 * sweepSteps cfg c ∧
    (∀ j, j < sweepSteps cfg c → c + 2 * j + 1 ≤ 0x7F ∧
      (sweepChar (c + 2 * j + 1)).toNat = c + 2 * j + 1) ∧
    (c ≤ cfg.fontMax.toNat → (cfg.fontMax.toNat - c) % 2 = 0 →
      c + 2 * (sweepSteps cfg c - 1) = cfg.fontMax.toNat ∧
      (¬ (0x60#8 ≤ cfg.fontMax ∧ cfg.fontMax ≤ 0x79#8) →
        charMask cfg (sweepChar (cfg.fontMax.toNat + 1)) = 0#16)) ∧
    rightOf (sweepFrame cfg cfg.fontMax.toNat) = 0#16 ∧
    (c ≤ cfg.fontMax.toNat → 0x61 ≤ c → c ≤ 0x7A →
      leftOf (sweepFrame cfg c) = charMask cfg (sweepChar (c - 0x20))) ∧
    (c + 1 ≤ cfg.fontMax.toNat → 0x61 ≤ c + 1 → c + 1 ≤ 0x7A →
      rightOf (sweepFrame cfg c) = charMask cfg (sweepChar (c + 1 - 0x20))) ∧
    (c + 1 < cfg.fontMin.toNat → sweepFrame cfg c = 0#32)

/-! ## Two grains -/

/-- 00_scope.md R8: a command that the engine accepts and then works off event by event reaches the state
that the whole command gives, with the same `TRACE`. -/
def Obligations.EventGrainReachesWholeCommand : Prop :=
  ∀ (i : Instr) (s : State), ∃ n, ticks Config.engine n (startCommand Config.engine i s) = exec i s

/-- 10_state.md R17, 20_memory.md R40, R43: a busy engine emits exactly one event in each step and changes
neither an earlier event, nor the registry of a command other than `REGCHAIN`, nor anything of the host's.
-/
def Obligations.TickEmitsOneEvent : Prop :=
  ∀ (cfg : Config) (s t : State), s.seq ≠ .idle → tick cfg s = .next t →
    (∃ e, t.trace = s.trace ++ [e] ∧ t.pins = applyEvent s.pins e) ∧ t.msg = s.msg ∧
    t.inputs = s.inputs ∧ t.fault = s.fault ∧
    (t.reg = s.reg ∨ ∃ d c, s.seq = .reg d c 3 ∧ t.reg = s.reg ++ [⟨d, c⟩])

/-- 30_encoding.md R66: `WRFRAME` is 36 `WRBIT`; the one difference is `DISP[k]`. -/
def Obligations.WrframeIsThirtySixWrbits : Prop :=
  ∀ (k : Nat) (f : SegFrame) (s : State) (rest : List HostInput), k < s.count → s.seq = .idle →
    s.inputs = ((List.range 36).map fun p => HostInput.command (.wrbit k (wire f p))) ++ rest →
    ∃ t u, exec (.wrframe k f) { s with inputs := rest } = .next t ∧ Sys2Proof.core.run 36 s = .next u ∧
      u = { t with disp := s.disp.set k none }

/-! ## Outputs -/

/-- 10_state.md R14, 20_memory.md R43: a pin is an output exactly when it has been configured, and it is at
the level of the last `SET` event for it, or at an unknown level when there is none. -/
def Obligations.PinStateIsLastWritten : Prop :=
  ∀ (es : List Event) (p : Pin),
    ((sparseGet PinState.untouched (replay es) p.number).mode = .output ↔ .cfg p ∈ es) ∧
    (sparseGet PinState.untouched (replay es) p.number).level =
      match (es.filterMap fun e =>
        match e with
        | .set q l => if q = p then some l else none
        | _ => none).getLast? with
      | some l => .driven l
      | none => .unknown

/-- 10_state.md R19: what a command emits and answers depends on the registry and host memory alone, not on
results, displays, pins, traces or faults of earlier commands. -/
def Obligations.CommandsDependOnRegistryOnly : Prop :=
  ∀ (i : Instr) (s s' : State), s.reg = s'.reg → s.msg = s'.msg →
    ∃ t t' es, exec i s = .next t ∧ exec i s' = .next t' ∧ t.trace = s.trace ++ es ∧
      t'.trace = s'.trace ++ es ∧ t.res = t'.res ∧ t.reg = t'.reg ∧ t.seq = t'.seq

/-- 00_scope.md R6, 20_memory.md R30, R32: no command writes host memory or takes an input, and every
command only appends to the trace, with the pins moving by the events appended. -/
def Obligations.CommandsLeaveHostMemory : Prop :=
  ∀ (i : Instr) (s t : State), exec i s = .next t →
    (∀ a, t.msg.read a = s.msg.read a) ∧ t.msg = s.msg ∧ t.inputs = s.inputs ∧
    ∃ es, t.trace = s.trace ++ es ∧ t.pins = es.foldl applyEvent s.pins

/-- 60_exceptions.md R131: while only commands of the public surface run, whole or event by event, nothing
that `DISP` says of a module is lost. -/
def Obligations.PublicCommandsKeepDisplay : Prop :=
  (∀ (i : Instr) (s t : State) (k : Nat) (f : SegFrame), i.isPublic = true → exec i s = .next t →
    s.disp[k]? = some (some f) → ∃ f', t.disp[k]? = some (some f')) ∧
  (∀ (cfg : Config) (s t : State) (k : Nat) (f : SegFrame), (∀ k' b ph, s.seq ≠ .bit k' b ph) →
    tick cfg s = .next t → s.disp[k]? = some (some f) → ∃ f', t.disp[k]? = some (some f'))

/-- 10_state.md R21, R22(d): with all registered pins distinct and no fault raised, a module shows the
frame last written to it, left digit and right digit; with two registered pins equal nothing can be said of
any module. -/
def Obligations.WrframeIsShown : Prop :=
  ∀ (k : Nat) (f : SegFrame) (s : State), k < s.count → s.disp.length = s.count →
    ∃ t, exec (.wrframe k f) s = .next t ∧
      (s.registeredPins.Nodup → s.fault = none → t.shown k = some f) ∧
      (¬ s.registeredPins.Nodup → ∀ j, t.shown j = none)

/-- 70_reset_and_hazards.md R156: the nominal delays of every command. -/
def Obligations.NominalDelays : Prop :=
  ∀ (s : State),
    (∀ d c, ∃ t es, exec (.regchain d c) s = .next t ∧ t.trace = s.trace ++ es ∧
      nominalUs es = 0 ∧ nominalMs es = 0) ∧
    (∀ c, ∃ t, exec (.chmask c) s = .next t ∧ t.trace = s.trace) ∧
    (∀ l r, ∃ t, exec (.compose l r) s = .next t ∧ t.trace = s.trace) ∧
    (∀ k b, k < s.count → ∃ t es, exec (.wrbit k b) s = .next t ∧ t.trace = s.trace ++ es ∧
      nominalUs es = Config.engine.tPulseUs ∧ nominalMs es = 0) ∧
    (∀ k f, k < s.count → ∃ t es, exec (.wrframe k f) s = .next t ∧ t.trace = s.trace ++ es ∧
      nominalUs es = 36 * Config.engine.tPulseUs ∧ nominalMs es = 0) ∧
    (∀ k l r, k < s.count → ∃ t es, exec (.wrchars k l r) s = .next t ∧ t.trace = s.trace ++ es ∧
      nominalUs es = 36 * Config.engine.tPulseUs ∧ nominalMs es = 0) ∧
    (∀ m t L, s.msg.messageLength m = some L → L ≠ 0 →
      ∃ u es, exec (.scroll m t) s = .next u ∧ u.trace = s.trace ++ es ∧
        nominalUs es = (L + 2 * s.count + 1) * (36 * s.count * Config.engine.tPulseUs) ∧
        nominalMs es = (L + 2 * s.count + 1) * t) ∧
    (∀ k c, k < s.count → ∃ t es, exec (.dtest k c) s = .next t ∧ t.trace = s.trace ++ es ∧
      nominalUs es = sweepSteps Config.engine c.toNat * (36 * Config.engine.tPulseUs) ∧
      nominalMs es = sweepSteps Config.engine c.toNat * Config.engine.tSweepMs)

/-- 70_reset_and_hazards.md R155 and log 2: the model's engine has the delays the document gives. -/
def Obligations.DocumentedDelays : Prop :=
  Config.engine.tPulseUs = 10 ∧ Config.engine.tSweepMs = 1500

/-- 20_memory.md R40: while a frame write is under way, when the module may show a mixture of old and new,
nothing is said of what it shows, and what is said of the other modules does not change; with the last event
the module shows the frame, if anything can be said. (That nothing is said from the acceptance of the write on
is the model's choice, log 17.) -/
def Obligations.WriteUnderWayIsNotShown : Prop :=
  ∀ (cfg : Config) (k : Nat) (f : SegFrame) (s : State), k < s.count → s.seq = .idle →
    s.disp.length = s.count →
    (∀ n, n < 144 → ∃ v, ticks cfg n (startCommand cfg (.wrframe k f) s) = .next v ∧
      v.seq.writingTo = some k ∧ v.disp = s.disp ∧ v.shown k = none ∧
      ∀ j, j ≠ k → v.shown j = s.shown j) ∧
    ∃ v, ticks cfg 144 (startCommand cfg (.wrframe k f) s) = .next v ∧ v.seq = .idle ∧
      v.shown k = (if s.registeredPins.Nodup ∧ s.fault = none then some f else none)
end

