-- ==== Sys2Proof/Laws/State.lean ====
section
/-! SUPPORT. One lemma per field per update of the state, each true by definition: later proofs need not
unfold a record update. `State.count` is treated as a field. -/

namespace Sys2Proof.Machine

open Sys2Proof

variable (s : State)

/-! ## State.emit -/

@[simp] theorem State.emit_reg (e : Event) :
    (s.emit e).reg = s.reg := rfl
@[simp] theorem State.emit_disp (e : Event) :
    (s.emit e).disp = s.disp := rfl
@[simp] theorem State.emit_pins (e : Event) :
    (s.emit e).pins = applyEvent s.pins e := rfl
@[simp] theorem State.emit_trace (e : Event) :
    (s.emit e).trace = s.trace ++ [e] := rfl
@[simp] theorem State.emit_res (e : Event) :
    (s.emit e).res = s.res := rfl
@[simp] theorem State.emit_seq (e : Event) :
    (s.emit e).seq = s.seq := rfl
@[simp] theorem State.emit_fault (e : Event) :
    (s.emit e).fault = s.fault := rfl
@[simp] theorem State.emit_msg (e : Event) :
    (s.emit e).msg = s.msg := rfl
@[simp] theorem State.emit_inputs (e : Event) :
    (s.emit e).inputs = s.inputs := rfl
@[simp] theorem State.emit_count (e : Event) :
    (s.emit e).count = s.count := rfl

/-! ## State.append -/

@[simp] theorem State.append_reg (ch : Chain) :
    (s.append ch).reg = s.reg ++ [ch] := rfl
@[simp] theorem State.append_disp (ch : Chain) :
    (s.append ch).disp = s.disp ++ [none] := rfl
@[simp] theorem State.append_pins (ch : Chain) :
    (s.append ch).pins = s.pins := rfl
@[simp] theorem State.append_trace (ch : Chain) :
    (s.append ch).trace = s.trace := rfl
@[simp] theorem State.append_res (ch : Chain) :
    (s.append ch).res = s.res := rfl
@[simp] theorem State.append_seq (ch : Chain) :
    (s.append ch).seq = s.seq := rfl
@[simp] theorem State.append_fault (ch : Chain) :
    (s.append ch).fault = s.fault := rfl
@[simp] theorem State.append_msg (ch : Chain) :
    (s.append ch).msg = s.msg := rfl
@[simp] theorem State.append_inputs (ch : Chain) :
    (s.append ch).inputs = s.inputs := rfl
@[simp] theorem State.append_count (ch : Chain) :
    (s.append ch).count = s.count + 1 := by
  simp [State.count]

/-! ## State.setDisp -/

@[simp] theorem State.setDisp_reg (k : Nat) (d : Option SegFrame) :
    (s.setDisp k d).reg = s.reg := rfl
@[simp] theorem State.setDisp_disp (k : Nat) (d : Option SegFrame) :
    (s.setDisp k d).disp = s.disp.set k d := rfl
@[simp] theorem State.setDisp_pins (k : Nat) (d : Option SegFrame) :
    (s.setDisp k d).pins = s.pins := rfl
@[simp] theorem State.setDisp_trace (k : Nat) (d : Option SegFrame) :
    (s.setDisp k d).trace = s.trace := rfl
@[simp] theorem State.setDisp_res (k : Nat) (d : Option SegFrame) :
    (s.setDisp k d).res = s.res := rfl
@[simp] theorem State.setDisp_seq (k : Nat) (d : Option SegFrame) :
    (s.setDisp k d).seq = s.seq := rfl
@[simp] theorem State.setDisp_fault (k : Nat) (d : Option SegFrame) :
    (s.setDisp k d).fault = s.fault := rfl
@[simp] theorem State.setDisp_msg (k : Nat) (d : Option SegFrame) :
    (s.setDisp k d).msg = s.msg := rfl
@[simp] theorem State.setDisp_inputs (k : Nat) (d : Option SegFrame) :
    (s.setDisp k d).inputs = s.inputs := rfl
@[simp] theorem State.setDisp_count (k : Nat) (d : Option SegFrame) :
    (s.setDisp k d).count = s.count := rfl

/-! ## State.complete -/

@[simp] theorem State.complete_reg (r : Option (BitVec 32)) :
    (s.complete r).reg = s.reg := rfl
@[simp] theorem State.complete_disp (r : Option (BitVec 32)) :
    (s.complete r).disp = s.disp := rfl
@[simp] theorem State.complete_pins (r : Option (BitVec 32)) :
    (s.complete r).pins = s.pins := rfl
@[simp] theorem State.complete_trace (r : Option (BitVec 32)) :
    (s.complete r).trace = s.trace := rfl
@[simp] theorem State.complete_res (r : Option (BitVec 32)) :
    (s.complete r).res = r := rfl
@[simp] theorem State.complete_seq (r : Option (BitVec 32)) :
    (s.complete r).seq = .idle := rfl
@[simp] theorem State.complete_fault (r : Option (BitVec 32)) :
    (s.complete r).fault = s.fault := rfl
@[simp] theorem State.complete_msg (r : Option (BitVec 32)) :
    (s.complete r).msg = s.msg := rfl
@[simp] theorem State.complete_inputs (r : Option (BitVec 32)) :
    (s.complete r).inputs = s.inputs := rfl
@[simp] theorem State.complete_count (r : Option (BitVec 32)) :
    (s.complete r).count = s.count := rfl

/-! ## State.start -/

@[simp] theorem State.start_reg (p : SeqPos) :
    (s.start p).reg = s.reg := rfl
@[simp] theorem State.start_disp (p : SeqPos) :
    (s.start p).disp = s.disp := rfl
@[simp] theorem State.start_pins (p : SeqPos) :
    (s.start p).pins = s.pins := rfl
@[simp] theorem State.start_trace (p : SeqPos) :
    (s.start p).trace = s.trace := rfl
@[simp] theorem State.start_res (p : SeqPos) :
    (s.start p).res = none := rfl
@[simp] theorem State.start_seq (p : SeqPos) :
    (s.start p).seq = p := rfl
@[simp] theorem State.start_fault (p : SeqPos) :
    (s.start p).fault = s.fault := rfl
@[simp] theorem State.start_msg (p : SeqPos) :
    (s.start p).msg = s.msg := rfl
@[simp] theorem State.start_inputs (p : SeqPos) :
    (s.start p).inputs = s.inputs := rfl
@[simp] theorem State.start_count (p : SeqPos) :
    (s.start p).count = s.count := rfl

/-! ## State.goTo -/

@[simp] theorem State.goTo_reg (p : SeqPos) :
    (s.goTo p).reg = s.reg := rfl
@[simp] theorem State.goTo_disp (p : SeqPos) :
    (s.goTo p).disp = s.disp := rfl
@[simp] theorem State.goTo_pins (p : SeqPos) :
    (s.goTo p).pins = s.pins := rfl
@[simp] theorem State.goTo_trace (p : SeqPos) :
    (s.goTo p).trace = s.trace := rfl
@[simp] theorem State.goTo_res (p : SeqPos) :
    (s.goTo p).res = s.res := rfl
@[simp] theorem State.goTo_seq (p : SeqPos) :
    (s.goTo p).seq = p := rfl
@[simp] theorem State.goTo_fault (p : SeqPos) :
    (s.goTo p).fault = s.fault := rfl
@[simp] theorem State.goTo_msg (p : SeqPos) :
    (s.goTo p).msg = s.msg := rfl
@[simp] theorem State.goTo_inputs (p : SeqPos) :
    (s.goTo p).inputs = s.inputs := rfl
@[simp] theorem State.goTo_count (p : SeqPos) :
    (s.goTo p).count = s.count := rfl

/-! ## State.raise -/

@[simp] theorem State.raise_reg (r : FaultReason) :
    (s.raise r).reg = s.reg := rfl
@[simp] theorem State.raise_disp (r : FaultReason) :
    (s.raise r).disp = s.disp := rfl
@[simp] theorem State.raise_pins (r : FaultReason) :
    (s.raise r).pins = s.pins := rfl
@[simp] theorem State.raise_trace (r : FaultReason) :
    (s.raise r).trace = s.trace := rfl
@[simp] theorem State.raise_res (r : FaultReason) :
    (s.raise r).res = none := rfl
@[simp] theorem State.raise_seq (r : FaultReason) :
    (s.raise r).seq = .idle := rfl
@[simp] theorem State.raise_fault (r : FaultReason) :
    (s.raise r).fault = some (s.fault.getD r) := rfl
@[simp] theorem State.raise_msg (r : FaultReason) :
    (s.raise r).msg = s.msg := rfl
@[simp] theorem State.raise_inputs (r : FaultReason) :
    (s.raise r).inputs = s.inputs := rfl
@[simp] theorem State.raise_count (r : FaultReason) :
    (s.raise r).count = s.count := rfl

/-! ## Two updates in a row -/

@[simp] theorem State.start_complete (p : SeqPos) (r : Option (BitVec 32)) :
    (s.start p).complete r = s.complete r := rfl
@[simp] theorem State.complete_complete (r r' : Option (BitVec 32)) :
    (s.complete r).complete r' = s.complete r' := rfl
@[simp] theorem State.goTo_goTo (p p' : SeqPos) : (s.goTo p).goTo p' = s.goTo p' := rfl
@[simp] theorem State.start_goTo (p p' : SeqPos) : (s.start p).goTo p' = s.start p' := rfl
@[simp] theorem State.goTo_start (p p' : SeqPos) : (s.goTo p).start p' = s.start p' := rfl
@[simp] theorem State.goTo_complete (p : SeqPos) (r : Option (BitVec 32)) :
    (s.goTo p).complete r = s.complete r := rfl
@[simp] theorem State.start_start (p p' : SeqPos) : (s.start p).start p' = s.start p' := rfl

/-- `RES` and `SEQ` are touched by nothing that emits, so the two commute. -/
theorem State.start_emit (p : SeqPos) (e : Event) : (s.start p).emit e = (s.emit e).start p := rfl
theorem State.goTo_emit (p : SeqPos) (e : Event) : (s.goTo p).emit e = (s.emit e).goTo p := rfl
theorem State.start_setDisp (p : SeqPos) (k : Nat) (d : Option SegFrame) :
    (s.start p).setDisp k d = (s.setDisp k d).start p := rfl
theorem State.goTo_setDisp (p : SeqPos) (k : Nat) (d : Option SegFrame) :
    (s.goTo p).setDisp k d = (s.setDisp k d).goTo p := rfl

end Sys2Proof.Machine
end

