-- ==== Sys2Proof/Laws/Ops.lean ====
section
/-! SUPPORT. What the shared operations of Machine/Ops.lean do, each said once: sparse maps (and with
them host memory and the pins), emitting, and the chain-index check. -/

namespace Sys2Proof.Machine

open Sys2Proof

/-! ## Sparse maps -/

/-- A key below every listed key holds the default. -/
theorem sparseGet_of_lt {α : Type} {d : α} {l : List (Nat × α)} {a : Nat} (h : ∀ y ∈ l, a < y.1) : sparseGet d l a = d := by
  induction l with
  | nil => rfl
  | cons x l ih =>
    have hx := h x (by simp)
    obtain ⟨b, w⟩ := x
    rw [sparseGet, if_neg (by simp at hx; omega)]
    exact ih fun y hy => h y (by simp [hy])

section Sparse

variable {α : Type} [DecidableEq α] {d : α} {l : List (Nat × α)}

theorem sparseWf_nil : sparseWf d [] = true := rfl

/-- The canonical form of a list with a first entry. -/
theorem sparseWf_cons {x : Nat × α} :
    sparseWf d (x :: l) = true ↔ (∀ y ∈ l, x.1 < y.1) ∧ x.2 ≠ d ∧ sparseWf d l = true := by
  simp only [sparseWf, List.pairwise_cons, List.all_cons, Bool.and_eq_true, decide_eq_true_eq]
  tauto

/-- A listed key is one of the old list or the key that was written. -/
theorem mem_sparseSet {a : Nat} {v : α} {y : Nat × α} (h : y ∈ sparseSet d l a v) :
    y ∈ l ∨ y = (a, v) := by
  induction l with
  | nil => simp only [sparseSet] at h; split at h <;> simp_all
  | cons x l ih =>
    obtain ⟨b, w⟩ := x
    simp only [sparseSet] at h
    split at h
    · split at h <;> simp_all; tauto
    · split at h
      · split at h <;> simp_all; tauto
      · rcases List.mem_cons.1 h with h | h
        · exact .inl (by simp [h])
        · exact (ih h).imp (by simp +contextual) id

/-- Writing keeps the canonical form. -/
theorem sparseSet_wf {a : Nat} {v : α} (h : sparseWf d l = true) :
    sparseWf d (sparseSet d l a v) = true := by
  induction l with
  | nil =>
    simp only [sparseSet]
    split
    · rfl
    · rename_i hv; exact sparseWf_cons.2 ⟨by simp, hv, rfl⟩
  | cons x l ih =>
    obtain ⟨b, w⟩ := x
    obtain ⟨h1, h2, h3⟩ := sparseWf_cons.1 h
    simp only [sparseSet]
    split
    · rename_i hab
      split
      · exact h
      · rename_i hv
        refine sparseWf_cons.2 ⟨fun y hy => ?_, hv, h⟩
        rcases List.mem_cons.1 hy with rfl | hy
        · exact hab
        · exact lt_trans hab (h1 y hy)
    · rename_i hab
      split
      · rename_i hab'
        split
        · exact h3
        · rename_i hv
          exact sparseWf_cons.2 ⟨fun y hy => by simpa [hab'] using h1 y hy, hv, h3⟩
      · rename_i hab'
        refine sparseWf_cons.2 ⟨fun y hy => ?_, h2, ih h3⟩
        rcases mem_sparseSet hy with hy | rfl
        · exact h1 y hy
        · simp only; omega

/-- What every key holds after a write. -/
theorem sparseGet_set {a b : Nat} {v : α} (h : sparseWf d l = true) :
    sparseGet d (sparseSet d l a v) b = if b = a then v else sparseGet d l b := by
  induction l with
  | nil =>
    simp only [sparseSet]
    split
    · rename_i hv; simp [sparseGet, hv]
    · simp [sparseGet]
  | cons x l ih =>
    obtain ⟨k, w⟩ := x
    obtain ⟨h1, h2, h3⟩ := sparseWf_cons.1 h
    simp only [sparseSet]
    split
    · rename_i hak
      split
      · rename_i hv
        by_cases hb : b = a
        · subst hb
          rw [if_pos rfl, hv]
          refine sparseGet_of_lt fun y hy => ?_
          rcases List.mem_cons.1 hy with rfl | hy
          · exact hak
          · exact lt_trans hak (h1 y hy)
        · rw [if_neg hb]
      · simp only [sparseGet]
    · rename_i hak
      split
      · rename_i hak'
        subst hak'
        split
        · rename_i hv
          by_cases hb : b = a
          · subst hb
            rw [if_pos rfl, hv, sparseGet_of_lt h1]
          · simp [sparseGet, hb]
        · by_cases hb : b = a <;> simp [sparseGet, hb]
      · rename_i hak'
        simp only [sparseGet]
        by_cases hb : b = k
        · subst hb; simp [show b ≠ a by omega]
        · simp [hb, ih h3]

/-- Two canonical lists that hold the same everywhere are equal. -/
theorem sparse_ext {l' : List (Nat × α)} (h : sparseWf d l = true) (h' : sparseWf d l' = true)
    (heq : ∀ a, sparseGet d l a = sparseGet d l' a) : l = l' := by
  induction l generalizing l' with
  | nil =>
    cases l' with
    | nil => rfl
    | cons y l' =>
      obtain ⟨b, w⟩ := y
      have := heq b
      simp only [sparseGet, if_pos] at this
      exact absurd this.symm (sparseWf_cons.1 h').2.1
  | cons x l ih =>
    obtain ⟨a, v⟩ := x
    obtain ⟨h1, h2, h3⟩ := sparseWf_cons.1 h
    cases l' with
    | nil =>
      have := heq a
      simp only [sparseGet, if_pos] at this
      exact absurd this h2
    | cons y l' =>
      obtain ⟨b, w⟩ := y
      obtain ⟨h1', h2', h3'⟩ := sparseWf_cons.1 h'
      have hab : a = b := by
        by_contra hne
        rcases Nat.lt_or_gt_of_ne hne with hlt | hgt
        · have := heq a
          rw [sparseGet, if_pos rfl, sparseGet_of_lt (l := (b, w) :: l')] at this
          · exact h2 this
          · intro y hy
            rcases List.mem_cons.1 hy with rfl | hy
            · exact hlt
            · exact lt_trans hlt (h1' y hy)
        · have := heq b
          rw [sparseGet_of_lt (l := (a, v) :: l), sparseGet, if_pos rfl] at this
          · exact h2' this.symm
          · intro y hy
            rcases List.mem_cons.1 hy with rfl | hy
            · exact hgt
            · exact lt_trans hgt (h1 y hy)
      subst hab
      have hv : v = w := by simpa [sparseGet] using heq a
      subst hv
      congr 1
      refine ih h3 h3' fun c => ?_
      by_cases hc : c = a
      · subst hc; rw [sparseGet_of_lt h1, sparseGet_of_lt h1']
      · simpa [sparseGet, hc] using heq c

end Sparse

/-! ## Host memory -/

theorem Memory.reset_wf : Memory.reset.wf = true := rfl

theorem Memory.write_wf {M : Memory} {a : Nat} {b : BitVec 8} (h : M.wf = true) :
    (M.write a b).wf = true := sparseSet_wf h

theorem Memory.read_write {M : Memory} {a a' : Nat} {b : BitVec 8} (h : M.wf = true) :
    (M.write a b).read a' = if a' = a then b else M.read a' := sparseGet_set h

/-- From `bound` on, nothing is listed. -/
theorem Memory.read_of_bound_le {M : Memory} {a : Nat} (h : M.bound ≤ a) : M.read a = M.fill := by
  obtain ⟨cells, fill⟩ := M
  simp only [Memory.bound, Memory.read] at *
  induction cells with
  | nil => rfl
  | cons x l ih =>
    obtain ⟨b, w⟩ := x
    simp only [List.foldr_cons] at h
    rw [sparseGet, if_neg (by omega)]
    exact ih (by omega)

theorem Memory.scanNull_some {M : Memory} {fuel m L : Nat} (h : M.scanNull fuel m = some L) :
    L < fuel ∧ M.read (m + L) = 0#8 ∧ ∀ i < L, M.read (m + i) ≠ 0#8 := by
  induction fuel generalizing m L with
  | zero => simp [Memory.scanNull] at h
  | succ fuel ih =>
    rw [Memory.scanNull] at h
    split at h
    · rename_i h0
      obtain rfl : (0 : Nat) = L := by simpa using h
      exact ⟨by omega, h0, by simp⟩
    · rename_i h0
      obtain ⟨L', hL', rfl⟩ := Option.map_eq_some_iff.1 h
      obtain ⟨h1, h2, h3⟩ := ih hL'
      refine ⟨by omega, by rw [← h2]; congr 1; omega, fun i hi => ?_⟩
      cases i with
      | zero => simpa using h0
      | succ i => rw [show m + (i + 1) = m + 1 + i by omega]; exact h3 i (by omega)

theorem Memory.scanNull_none {M : Memory} {fuel m : Nat} (h : M.scanNull fuel m = none) :
    ∀ i < fuel, M.read (m + i) ≠ 0#8 := by
  induction fuel generalizing m with
  | zero => intro i hi; omega
  | succ fuel ih =>
    rw [Memory.scanNull] at h
    split at h
    · cases h
    · rename_i h0
      have := ih (Option.map_eq_none_iff.1 h)
      intro i hi
      cases i with
      | zero => simpa using h0
      | succ i => rw [show m + (i + 1) = m + 1 + i by omega]; exact this i (by omega)

/-- The message at `m` has length `L` exactly when the first null from `m` on is at `m + L`. -/
theorem Memory.messageLength_eq_some {M : Memory} {m L : Nat} :
    M.messageLength m = some L ↔ M.read (m + L) = 0#8 ∧ ∀ i < L, M.read (m + i) ≠ 0#8 := by
  refine ⟨fun h => (Memory.scanNull_some h).2, fun ⟨h0, h1⟩ => ?_⟩
  rw [Memory.messageLength]
  cases h : M.scanNull (M.bound - m + 1) m with
  | none =>
    exfalso
    have hn := Memory.scanNull_none h
    by_cases hL : L < M.bound - m + 1
    · exact hn L hL h0
    · refine hn (M.bound - m) (by omega) ?_
      rw [Memory.read_of_bound_le (by omega), ← h0, Memory.read_of_bound_le (by omega)]
  | some L' =>
    obtain ⟨_, h2, h3⟩ := Memory.scanNull_some h
    congr 1
    rcases Nat.lt_trichotomy L' L with hlt | heq | hgt
    · exact absurd h2 (h1 L' hlt)
    · exact heq
    · exact absurd h0 (h3 L hgt)

/-- The message at `m` has no length exactly when no byte from `m` on is a null. -/
theorem Memory.messageLength_eq_none {M : Memory} {m : Nat} :
    M.messageLength m = none ↔ ∀ i, M.read (m + i) ≠ 0#8 := by
  refine ⟨fun h i hi => ?_, fun h => ?_⟩
  · have hn := Memory.scanNull_none h
    by_cases hL : i < M.bound - m + 1
    · exact hn i hL hi
    · refine hn (M.bound - m) (by omega) ?_
      rw [Memory.read_of_bound_le (by omega), ← hi, Memory.read_of_bound_le (by omega)]
  · cases h' : M.messageLength m with
    | none => rfl
    | some L => exact absurd (Memory.messageLength_eq_some.1 h').1 (h L)

/-! ## Events -/

/-- An event keeps the canonical form of the pin state. -/
theorem applyEvent_wf {pins : List (Nat × PinState)} {e : Event}
    (h : sparseWf PinState.untouched pins = true) :
    sparseWf PinState.untouched (applyEvent pins e) = true := by
  cases e with
  | cfg p => exact sparseSet_wf h
  | set p l => exact sparseSet_wf h
  | dlyUs n => exact h
  | dlyMs n => exact h

/-- What the pin state holds after `CFG(p)`: the mode changes and the level does not (R14). -/
theorem sparseGet_applyEvent_cfg {pins : List (Nat × PinState)} {p q : Pin}
    (h : sparseWf PinState.untouched pins = true) :
    sparseGet PinState.untouched (applyEvent pins (.cfg p)) q.number =
      if q = p then ⟨.output, (sparseGet PinState.untouched pins p.number).level⟩
      else sparseGet PinState.untouched pins q.number :=
  (sparseGet_set h).trans (by simp only [Pin.ext_iff])

/-- What the pin state holds after `SET(p, l)`: the level changes and the mode does not (R14). -/
theorem sparseGet_applyEvent_set {pins : List (Nat × PinState)} {p q : Pin} {l : Level}
    (h : sparseWf PinState.untouched pins = true) :
    sparseGet PinState.untouched (applyEvent pins (.set p l)) q.number =
      if q = p then ⟨(sparseGet PinState.untouched pins p.number).mode, .driven l⟩
      else sparseGet PinState.untouched pins q.number :=
  (sparseGet_set h).trans (by simp only [Pin.ext_iff])

theorem foldl_applyEvent_wf {es : List Event} {pins : List (Nat × PinState)}
    (h : sparseWf PinState.untouched pins = true) :
    sparseWf PinState.untouched (es.foldl applyEvent pins) = true := by
  induction es generalizing pins with
  | nil => exact h
  | cons e es ih => exact ih (applyEvent_wf h)

theorem replay_append (es es' : List Event) :
    replay (es ++ es') = es'.foldl applyEvent (replay es) := List.foldl_append ..

/-! ## One event at one pin -/

/-- What an event does to each pin: `CFG` its mode, `SET` its level, the delays nothing (R14). -/
theorem State.pin_emit {s : State} {e : Event} (h : sparseWf PinState.untouched s.pins = true) (p : Pin) :
    (s.emit e).pin p =
      match e with
      | .cfg q => if p = q then ⟨.output, (s.pin q).level⟩ else s.pin p
      | .set q l => if p = q then ⟨(s.pin q).mode, .driven l⟩ else s.pin p
      | .dlyUs _ => s.pin p
      | .dlyMs _ => s.pin p := by
  cases e with
  | cfg q => exact sparseGet_applyEvent_cfg h
  | set q l => exact sparseGet_applyEvent_set h
  | dlyUs n => rfl
  | dlyMs n => rfl

/-- Emitting keeps the canonical form of the pin state. -/
theorem State.emit_pins_wf {s : State} (e : Event) (h : sparseWf PinState.untouched s.pins = true) :
    sparseWf PinState.untouched (s.emit e).pins = true := by
  rw [State.emit_pins]
  exact applyEvent_wf h

/-- An output stays an output. -/
theorem State.pinMode_emit_of_output {s : State} {e : Event}
    (h : sparseWf PinState.untouched s.pins = true) {p : Pin} (hp : s.pinMode p = .output) :
    (s.emit e).pinMode p = .output := by
  rw [State.pinMode, State.pin_emit h]
  cases e with
  | cfg q => simp only; split <;> [rfl; exact hp]
  | set q l => simp only; split <;> [(rename_i hq; subst hq; exact hp); exact hp]
  | dlyUs n => exact hp
  | dlyMs n => exact hp

/-- Only `SET` moves a level, and only that of its pin. -/
theorem State.pinLevel_emit {s : State} {e : Event} (h : sparseWf PinState.untouched s.pins = true)
    (p : Pin) :
    (s.emit e).pinLevel p =
      match e with
      | .set q l => if p = q then .driven l else s.pinLevel p
      | _ => s.pinLevel p := by
  rw [State.pinLevel, State.pin_emit h]
  cases e with
  | cfg q => simp only; split <;> [(rename_i hq; subst hq; rfl); rfl]
  | set q l => simp only; split <;> rfl
  | dlyUs n => rfl
  | dlyMs n => rfl

/-! ## State.emitAll -/

section EmitAll

variable (s : State) (es : List Event)

@[simp] theorem State.emitAll_nil : s.emitAll [] = s := rfl
@[simp] theorem State.emitAll_cons (e : Event) : s.emitAll (e :: es) = (s.emit e).emitAll es := rfl

theorem State.emitAll_append (es' : List Event) :
    s.emitAll (es ++ es') = (s.emitAll es).emitAll es' := List.foldl_append ..

/-- Emitting touches the pins and the trace and nothing else. -/
theorem State.emitAll_eq :
    s.emitAll es = { s with pins := es.foldl applyEvent s.pins, trace := s.trace ++ es } := by
  induction es generalizing s with
  | nil => simp
  | cons e es ih => rw [State.emitAll_cons, ih]; simp [State.emit]

@[simp] theorem State.emitAll_reg : (s.emitAll es).reg = s.reg := by rw [State.emitAll_eq]
@[simp] theorem State.emitAll_disp : (s.emitAll es).disp = s.disp := by rw [State.emitAll_eq]
@[simp] theorem State.emitAll_pins : (s.emitAll es).pins = es.foldl applyEvent s.pins := by
  rw [State.emitAll_eq]
@[simp] theorem State.emitAll_trace : (s.emitAll es).trace = s.trace ++ es := by
  rw [State.emitAll_eq]
@[simp] theorem State.emitAll_res : (s.emitAll es).res = s.res := by rw [State.emitAll_eq]
@[simp] theorem State.emitAll_seq : (s.emitAll es).seq = s.seq := by rw [State.emitAll_eq]
@[simp] theorem State.emitAll_fault : (s.emitAll es).fault = s.fault := by rw [State.emitAll_eq]
@[simp] theorem State.emitAll_msg : (s.emitAll es).msg = s.msg := by rw [State.emitAll_eq]
@[simp] theorem State.emitAll_inputs : (s.emitAll es).inputs = s.inputs := by rw [State.emitAll_eq]
@[simp] theorem State.emitAll_count : (s.emitAll es).count = s.count := by rw [State.emitAll_eq]; rfl

theorem State.start_emitAll (p : SeqPos) : (s.start p).emitAll es = (s.emitAll es).start p := by
  rw [State.emitAll_eq, State.emitAll_eq]; rfl
theorem State.goTo_emitAll (p : SeqPos) : (s.goTo p).emitAll es = (s.emitAll es).goTo p := by
  rw [State.emitAll_eq, State.emitAll_eq]; rfl

end EmitAll

/-! ## The chain-index check -/

/-- A registered index: the body runs on its descriptor. -/
theorem State.withChain_of_some {s : State} {k : Nat} {ch : Chain} {body : Chain → State}
    (h : s.reg[k]? = some ch) : s.withChain k body = body ch := by
  simp [State.withChain, h]

/-- An index at or above `COUNT`: the fault reason is raised and nothing else happens. -/
theorem State.withChain_of_le {s : State} {k : Nat} {body : Chain → State} (h : s.count ≤ k) :
    s.withChain k body = s.raise (.chainIndexOutOfRange k) := by
  simp [State.withChain, List.getElem?_eq_none (show s.reg.length ≤ k from h)]

/-- The descriptor of an index below `COUNT`. -/
theorem State.exists_chain {s : State} {k : Nat} (h : k < s.count) : ∃ ch, s.reg[k]? = some ch :=
  ⟨_, List.getElem?_eq_getElem h⟩

end Sys2Proof.Machine
end

