-- ==== Sys2Proof/Laws/Operands.lean ====
section
/-! SUPPORT. What the functions of Machine/Operands.lean compute, case by case or bit by bit. -/

namespace Sys2Proof.Machine

open Sys2Proof

/-! ## The wire function -/

@[simp] theorem wire_zero (f : SegFrame) : wire f 0 = true := rfl
@[simp] theorem wire_one (f : SegFrame) : wire f 1 = false := rfl
theorem wire_payload (f : SegFrame) {i : Nat} (h : i < 32) : wire f (i + 2) = f.getLsbD i := by
  simp [wire, show i + 2 ≤ 33 by omega]
theorem wire_trailing (f : SegFrame) {p : Nat} (h : 34 ≤ p) : wire f p = false := by
  simp [wire, show p ≠ 0 by omega, show p ≠ 1 by omega, show ¬ p ≤ 33 by omega]

/-! ## Masks -/

theorem foldCase_lower {c : CharCode} (h : 0x61#8 ≤ c ∧ c ≤ 0x7A#8) : foldCase c = c - 0x20#8 :=
  if_pos h
theorem foldCase_other {c : CharCode} (h : ¬ (0x61#8 ≤ c ∧ c ≤ 0x7A#8)) : foldCase c = c := if_neg h

theorem charMask_blank {cfg : Config} {c : CharCode}
    (h : foldCase c < cfg.fontMin ∨ cfg.fontMax < foldCase c) : charMask cfg c = 0#16 := if_pos h
theorem charMask_font {cfg : Config} {c : CharCode}
    (h : ¬ (foldCase c < cfg.fontMin ∨ cfg.fontMax < foldCase c)) :
    charMask cfg c = cfg.font (foldCase c) := if_neg h

/-- Code 0 is blank for every font, since `FONT_MIN` is at least 0x20 (R4, R102). -/
@[simp] theorem charMask_zero (cfg : Config) : charMask cfg blank = 0#16 := by
  apply charMask_blank
  left
  have h := cfg.fontMin_ge
  rw [show foldCase blank = 0#8 by decide]
  simp only [BitVec.le_def, BitVec.lt_def, BitVec.toNat_ofNat] at *
  omega

/-! ## The sweep -/

/-- Up to `FONT_MAX` the right character of a sweep's pair is the next code. -/
theorem sweepRightChar_of_le {cfg : Config} {c : Nat} (h : c + 1 ≤ cfg.fontMax.toNat) :
    sweepRightChar cfg c = sweepChar (c + 1) := if_neg (by omega)

/-- Past `FONT_MAX` it is a blank. -/
theorem sweepRightChar_of_lt {cfg : Config} {c : Nat} (h : cfg.fontMax.toNat < c + 1) :
    sweepRightChar cfg c = blank := if_pos h

/-- The frame of a pair that ends past `FONT_MAX` has a blank right digit. -/
theorem sweepFrame_of_lt {cfg : Config} {c : Nat} (h : cfg.fontMax.toNat < c + 1) :
    sweepFrame cfg c = frameOf (charMask cfg (sweepChar c)) 0#16 := by
  rw [sweepFrame, sweepRightChar_of_lt h, composeFrame, charMask_zero]

/-! ## Frames, bit by bit -/

theorem getLsbD_frameOf (ml mr : Mask) (i : Nat) :
    (frameOf ml mr).getLsbD i =
      if i < 8 then mr.getLsbD i
      else if i < 24 then ml.getLsbD (i - 8)
      else if i < 32 then mr.getLsbD (i - 16) else false := by
  simp only [frameOf, BitVec.getLsbD_or, BitVec.getLsbD_shiftLeft, BitVec.getLsbD_setWidth,
    BitVec.getLsbD_extractLsb']
  by_cases h8 : i < 8
  · simp [h8, show i < 32 by omega, show i < 24 by omega]
  · by_cases h24 : i < 24
    · simp [h8, h24, show i < 32 by omega, show i - 8 < 32 by omega]
    · by_cases h32 : i < 32
      · have : ml.getLsbD (i - 8) = false := BitVec.getLsbD_of_ge _ _ (by omega)
        simp [h8, h24, h32, this, show i - 24 < 8 by omega, show i - 24 < 32 by omega,
          show 8 + (i - 24) = i - 16 by omega]
      · simp [h8, h24, h32]

theorem getLsbD_leftOf (f : SegFrame) (i : Nat) :
    (leftOf f).getLsbD i = (decide (i < 16) && f.getLsbD (8 + i)) := by
  simp [leftOf, BitVec.getLsbD_extractLsb']

theorem getLsbD_rightOf (f : SegFrame) (i : Nat) :
    (rightOf f).getLsbD i =
      if i < 8 then f.getLsbD i else decide (i < 16) && f.getLsbD (16 + i) := by
  simp only [rightOf, BitVec.getLsbD_append, BitVec.getLsbD_extractLsb']
  by_cases h : i < 8
  · simp [h]
  · simp [h, show 24 + (i - 8) = 16 + i by omega]
    by_cases h' : i < 16
    · simp [h', show i - 8 < 8 by omega]
    · simp [h', show ¬ i - 8 < 8 by omega]

/-! ## The marquee's cursors -/

@[simp] theorem Marquee.init_hi (n : Nat) : (Marquee.init n).hi = 2 * (n : Int) - 1 - 1 := rfl
@[simp] theorem Marquee.init_lo (n : Nat) : (Marquee.init n).lo = 2 * (n : Int) - 1 + 1 := rfl
@[simp] theorem Marquee.init_cur (n : Nat) : (Marquee.init n).cur = 0 := rfl
@[simp] theorem Marquee.init_ex (n : Nat) : (Marquee.init n).ex = false := rfl

theorem Marquee.advance_hi (q : Marquee) (M : Memory) (m : Nat) :
    (q.advance M m).hi = if 0 ≤ q.hi then q.hi - 1 else q.hi := by
  cases h : q.ex <;> simp [Marquee.advance, h]
theorem Marquee.advance_of_ex {q : Marquee} (M : Memory) (m : Nat) (h : q.ex = true) :
    (q.advance M m).lo = q.lo - 1 ∧ (q.advance M m).cur = q.cur ∧ (q.advance M m).ex = true := by
  simp [Marquee.advance, h]
theorem Marquee.advance_of_not_ex {q : Marquee} (M : Memory) (m : Nat) (h : q.ex = false) :
    (q.advance M m).lo = q.lo ∧ (q.advance M m).cur = q.cur + 1 ∧
      (q.advance M m).ex = decide (M.read (m + (q.cur + 1)) = 0#8) := by
  simp [Marquee.advance, h]

end Sys2Proof.Machine
end

