-- ==== Sys2Proof/Laws/Commands.lean ====
section
/-! SUPPORT. What the shared sub-operations of the commands do, each said once: the frame write, the
writes of an animation frame, one round of each loop. -/

namespace Sys2Proof.Machine

open Sys2Proof

/-! ## The dispatch -/

section Exec

variable (s : State)

@[simp] theorem exec_regchain (d c : Pin) :
    exec (.regchain d c) s = .next (regchain Config.engine d c s) := rfl
@[simp] theorem exec_wrbit (k : Nat) (b : Bool) :
    exec (.wrbit k b) s = .next (wrbit Config.engine k b s) := rfl
@[simp] theorem exec_wrframe (k : Nat) (f : SegFrame) :
    exec (.wrframe k f) s = .next (wrframe Config.engine k f s) := rfl
@[simp] theorem exec_chmask (c : CharCode) :
    exec (.chmask c) s = .next (chmask Config.engine c s) := rfl
@[simp] theorem exec_compose (l r : CharCode) :
    exec (.compose l r) s = .next (compose Config.engine l r s) := rfl
@[simp] theorem exec_wrchars (k : Nat) (l r : CharCode) :
    exec (.wrchars k l r) s = .next (wrchars Config.engine k l r s) := rfl
@[simp] theorem exec_scroll (m t : Nat) :
    exec (.scroll m t) s = .next (scroll Config.engine m t s) := rfl
@[simp] theorem exec_dtest (k : Nat) (c : CharCode) :
    exec (.dtest k c) s = .next (dtest Config.engine k c s) := rfl

end Exec

/-! ## Frame writes -/

/-- The length of a flat map whose parts have one length. -/
theorem length_flatMap_of_const {α β : Type} {f : α → List β} {n : Nat} {l : List α}
    (h : ∀ a, (f a).length = n) : (l.flatMap f).length = l.length * n := by
  induction l with
  | nil => simp
  | cons a l ih => simp [ih, h a, Nat.add_mul, Nat.add_comm]

section FrameOut

variable (s : State) (cfg : Config) (k : Nat) (ch : Chain) (f : SegFrame)

@[simp] theorem length_bitEvents (b : Bool) : (bitEvents cfg ch b).length = 4 := rfl

@[simp] theorem length_frameEvents : (frameEvents cfg ch f).length = 144 := by
  rw [frameEvents, length_flatMap_of_const (n := 4) (fun _ => rfl), List.length_range]

/-- The frame write touches the pins, the trace and `DISP[k]`, and nothing else. -/
theorem State.frameOut_eq :
    s.frameOut cfg k ch f =
      { s with
        pins := (frameEvents cfg ch f).foldl applyEvent s.pins
        trace := s.trace ++ frameEvents cfg ch f
        disp := s.disp.set k (some f) } := by
  rw [State.frameOut]
  generalize frameEvents cfg ch f = es
  rw [State.emitAll_eq, State.setDisp]

@[simp] theorem State.frameOut_reg : (s.frameOut cfg k ch f).reg = s.reg := by
  rw [State.frameOut_eq]
@[simp] theorem State.frameOut_count : (s.frameOut cfg k ch f).count = s.count := by
  rw [State.frameOut_eq]; rfl
@[simp] theorem State.frameOut_disp : (s.frameOut cfg k ch f).disp = s.disp.set k (some f) := by
  rw [State.frameOut_eq]
@[simp] theorem State.frameOut_pins :
    (s.frameOut cfg k ch f).pins = (frameEvents cfg ch f).foldl applyEvent s.pins := by
  rw [State.frameOut_eq]
@[simp] theorem State.frameOut_trace :
    (s.frameOut cfg k ch f).trace = s.trace ++ frameEvents cfg ch f := by
  rw [State.frameOut_eq]
@[simp] theorem State.frameOut_res : (s.frameOut cfg k ch f).res = s.res := by
  rw [State.frameOut_eq]
@[simp] theorem State.frameOut_seq : (s.frameOut cfg k ch f).seq = s.seq := by
  rw [State.frameOut_eq]
@[simp] theorem State.frameOut_fault : (s.frameOut cfg k ch f).fault = s.fault := by
  rw [State.frameOut_eq]
@[simp] theorem State.frameOut_msg : (s.frameOut cfg k ch f).msg = s.msg := by
  rw [State.frameOut_eq]
@[simp] theorem State.frameOut_inputs : (s.frameOut cfg k ch f).inputs = s.inputs := by
  rw [State.frameOut_eq]

end FrameOut

/-! ## The writes of one animation frame -/

/-- The events of the writes to the modules below `n`, in descending order. -/
def moduleEvents (cfg : Config) (reg : List Chain) (M : Memory) (m : Nat) (q : Marquee) :
    Nat → List Event
  | 0 => []
  | k + 1 =>
    (match reg[k]? with
      | some ch => frameEvents cfg ch (q.frameFor cfg M m k)
      | none => []) ++ moduleEvents cfg reg M m q k

/-- What `DISP` is after the writes to the modules below `n`. -/
def moduleDisp (cfg : Config) (reg : List Chain) (M : Memory) (m : Nat) (q : Marquee) :
    Nat → List (Option SegFrame) → List (Option SegFrame)
  | 0, disp => disp
  | k + 1, disp =>
    moduleDisp cfg reg M m q k
      (if k < reg.length then disp.set k (some (q.frameFor cfg M m k)) else disp)

/-- The writes of an animation frame touch the pins, the trace and `DISP`, and nothing else. -/
theorem writeModules_eq (cfg : Config) (m : Nat) (q : Marquee) (n : Nat) (s : State) :
    writeModules cfg m q n s =
      { s.emitAll (moduleEvents cfg s.reg s.msg m q n) with
        disp := moduleDisp cfg s.reg s.msg m q n s.disp } := by
  induction n generalizing s with
  | zero => rfl
  | succ k ih =>
    rw [writeModules]
    cases h : s.reg[k]? with
    | some ch =>
      have hk : k < s.reg.length := (List.getElem?_eq_some_iff.1 h).1
      simp only [ih, State.frameOut_reg, State.frameOut_msg, State.frameOut_disp, moduleEvents, h,
        moduleDisp, hk, if_true, State.emitAll_append]
      rw [State.frameOut_eq, State.emitAll_eq, State.emitAll_eq, State.emitAll_eq]
    | none =>
      have hk : ¬ k < s.reg.length := by simpa using h
      simp only [ih, moduleEvents, h, moduleDisp, hk, if_false, List.nil_append]

section WriteModules

variable (cfg : Config) (m : Nat) (q : Marquee) (n : Nat) (s : State)

@[simp] theorem writeModules_reg : (writeModules cfg m q n s).reg = s.reg := by
  rw [writeModules_eq]; simp
@[simp] theorem writeModules_count : (writeModules cfg m q n s).count = s.count := by
  rw [State.count, writeModules_reg, State.count]
@[simp] theorem writeModules_msg : (writeModules cfg m q n s).msg = s.msg := by
  rw [writeModules_eq]; simp
@[simp] theorem writeModules_fault : (writeModules cfg m q n s).fault = s.fault := by
  rw [writeModules_eq]; simp
@[simp] theorem writeModules_inputs : (writeModules cfg m q n s).inputs = s.inputs := by
  rw [writeModules_eq]; simp
@[simp] theorem writeModules_res : (writeModules cfg m q n s).res = s.res := by
  rw [writeModules_eq]; simp
@[simp] theorem writeModules_seq : (writeModules cfg m q n s).seq = s.seq := by
  rw [writeModules_eq]; simp
@[simp] theorem writeModules_trace :
    (writeModules cfg m q n s).trace = s.trace ++ moduleEvents cfg s.reg s.msg m q n := by
  rw [writeModules_eq]; simp
@[simp] theorem writeModules_pins :
    (writeModules cfg m q n s).pins =
      (moduleEvents cfg s.reg s.msg m q n).foldl applyEvent s.pins := by
  rw [writeModules_eq]; simp
@[simp] theorem writeModules_disp :
    (writeModules cfg m q n s).disp = moduleDisp cfg s.reg s.msg m q n s.disp := by
  rw [writeModules_eq]

end WriteModules

@[simp] theorem length_moduleDisp (cfg : Config) (reg : List Chain) (M : Memory) (m : Nat)
    (q : Marquee) (n : Nat) (disp : List (Option SegFrame)) :
    (moduleDisp cfg reg M m q n disp).length = disp.length := by
  induction n generalizing disp with
  | zero => rfl
  | succ k ih => rw [moduleDisp, ih]; split <;> simp

/-! ## One round of each loop -/

/-- The state after an animation frame that starts with cursors `q` (steps 1 to 5 of R102). -/
def afterFrame (cfg : Config) (m t : Nat) (q : Marquee) (s : State) : State :=
  (writeModules cfg m q s.count s).emit (.dlyMs t)

theorem scrollLoop_succ (cfg : Config) (m t rounds frame : Nat) (q : Marquee) (s : State) :
    scrollLoop cfg m t (rounds + 1) frame q s =
      if (q.advance s.msg m).lo < 0 then (afterFrame cfg m t q s).complete none
      else scrollLoop cfg m t rounds (frame + 1) (q.advance s.msg m) (afterFrame cfg m t q s) := rfl

/-- The state after a step of the sweep with cursor `c`. -/
def afterSweep (cfg : Config) (k : Nat) (ch : Chain) (c : Nat) (s : State) : State :=
  (s.frameOut cfg k ch (sweepFrame cfg c)).emit (.dlyMs cfg.tSweepMs)

theorem sweepLoop_succ (cfg : Config) (k : Nat) (ch : Chain) (rounds c : Nat) (s : State) :
    sweepLoop cfg k ch (rounds + 1) c s =
      if c ≤ cfg.fontMax.toNat then sweepLoop cfg k ch rounds (c + 2) (afterSweep cfg k ch c s)
      else s.complete none := rfl

/-- A `SCROLL` leaves the registry, host memory, the inputs and the fault mark alone, whatever the
number of rounds. -/
theorem scrollLoop_keeps (cfg : Config) (m t rounds frame : Nat) (q : Marquee) (s : State) :
    let u := scrollLoop cfg m t rounds frame q s
    u.reg = s.reg ∧ u.msg = s.msg ∧ u.inputs = s.inputs ∧ u.fault = s.fault ∧ u.res = none ∧
      u.disp.length = s.disp.length := by
  induction rounds generalizing frame q s with
  | zero => simp [scrollLoop]
  | succ rounds ih =>
    rw [scrollLoop_succ]
    split
    · simp [afterFrame]
    · have := ih (frame + 1) (q.advance s.msg m) (afterFrame cfg m t q s)
      simpa [afterFrame] using this

/-- A `DTEST` leaves the registry, host memory, the inputs and the fault mark alone. -/
theorem sweepLoop_keeps (cfg : Config) (k : Nat) (ch : Chain) (rounds c : Nat) (s : State) :
    let u := sweepLoop cfg k ch rounds c s
    u.reg = s.reg ∧ u.msg = s.msg ∧ u.inputs = s.inputs ∧ u.fault = s.fault ∧ u.res = none ∧
      u.disp.length = s.disp.length := by
  induction rounds generalizing c s with
  | zero => rw [sweepLoop]; split <;> simp
  | succ rounds ih =>
    rw [sweepLoop_succ]
    split
    · have := ih (c + 2) (afterSweep cfg k ch c s)
      simpa [afterSweep] using this
    · simp

end Sys2Proof.Machine
end

