-- ==== Sys2Proof/Laws/Encoding.lean ====
section
/-! SUPPORT. The fields of an assembled command word, as values and as bits, for the laws about `encode`
and `decode`. -/

namespace Sys2Proof

/-! ## Values -/

theorem toNat_ofFields (op a : BitVec 8) (w : BitVec 32) :
    (ofFields op a w).toNat = op.toNat * 2 ^ 40 + a.toNat * 2 ^ 32 + w.toNat := by
  have ha := a.isLt
  have hw := w.isLt
  simp only [ofFields, BitVec.toNat_append]
  rw [← Nat.shiftLeft_add_eq_or_of_lt hw, ← Nat.shiftLeft_add_eq_or_of_lt ha]
  simp only [Nat.shiftLeft_eq]
  omega

/-- The value of a slice of a command word. -/
theorem toNat_slice (w : CmdWord) (lo len : Nat) :
    (w.extractLsb' lo len).toNat = w.toNat / 2 ^ lo % 2 ^ len := by
  simp [BitVec.extractLsb'_toNat, Nat.shiftRight_eq_div_pow]

/-- The value of two characters side by side. -/
theorem toNat_chars (l r : CharCode) : (l ++ r).toNat = l.toNat * 256 + r.toNat := by
  rw [BitVec.toNat_append, ← Nat.shiftLeft_add_eq_or_of_lt r.isLt, Nat.shiftLeft_eq]

/-- The value of two 16-bit halves side by side. -/
theorem toNat_halves (h l : BitVec 16) : (h ++ l).toNat = h.toNat * 65536 + l.toNat := by
  rw [BitVec.toNat_append, ← Nat.shiftLeft_add_eq_or_of_lt l.isLt, Nat.shiftLeft_eq]

theorem wBit0_eq (w : CmdWord) : wBit0 w = decide (w.toNat % 2 = 1) := by
  simp [wBit0, BitVec.getLsbD, Nat.testBit_zero]

/-! ## Pins -/

@[simp] theorem pinOfByte_number (b : BitVec 8) : (pinOfByte b).number = b.toNat := rfl

/-- A pin that fits the field of a command word is the pin that the field names. -/
theorem pinOfByte_ofNat {p : Pin} (h : p.number < 256) : pinOfByte (BitVec.ofNat 8 p.number) = p := by
  ext
  simp only [pinOfByte_number, BitVec.toNat_ofNat]
  omega

/-! ## The three fields -/

section Fields

variable (op a : BitVec 8) (w : BitVec 32)

@[simp] theorem opField_ofFields : opField (ofFields op a w) = op := by
  have := op.isLt
  have := a.isLt
  have := w.isLt
  apply BitVec.eq_of_toNat_eq
  rw [opField, toNat_slice, toNat_ofFields]
  omega

@[simp] theorem aField_ofFields : aField (ofFields op a w) = a := by
  have := op.isLt
  have := a.isLt
  have := w.isLt
  apply BitVec.eq_of_toNat_eq
  rw [aField, toNat_slice, toNat_ofFields]
  omega

@[simp] theorem wField_ofFields : wField (ofFields op a w) = w := by
  have := op.isLt
  have := a.isLt
  have := w.isLt
  apply BitVec.eq_of_toNat_eq
  rw [wField, toNat_slice, toNat_ofFields]
  omega

/-- A mask acts on each field by itself. -/
theorem ofFields_and (op' a' : BitVec 8) (w' : BitVec 32) :
    ofFields op a w &&& ofFields op' a' w' = ofFields (op &&& op') (a &&& a') (w &&& w') :=
  BitVec.and_append.trans (congrArg (· ++ _) BitVec.and_append)

end Fields

end Sys2Proof
end

