-- ==== Sys2Proof/Laws/Events.lean ====
section
/-! SUPPORT. What runs of ticks do: a bit, a Protocol Frame, the writes of an animation frame, a whole
animation frame. A proof about the event grain cites these and need not count to 144. -/

namespace Sys2Proof.Machine

open Sys2Proof

/-! ## Runs of ticks -/

theorem ticks_zero (cfg : Config) (s : State) : ticks cfg 0 s = .next s := rfl

theorem ticks_succ_of_next {cfg : Config} {n : Nat} {s t : State} (h : tick cfg s = .next t) :
    ticks cfg (n + 1) s = ticks cfg n t := by
  rw [ticks, h]

theorem ticks_add {cfg : Config} {a b : Nat} {s t : State} (h : ticks cfg a s = .next t) :
    ticks cfg (a + b) s = ticks cfg b t := by
  induction a generalizing s with
  | zero =>
    simp only [ticks] at h
    cases h
    simp
  | succ a ih =>
    rw [show a + 1 + b = (a + b) + 1 by omega, ticks]
    rw [ticks] at h
    cases ht : tick cfg s with
    | next u => simp only [ht] at h ⊢; exact ih h
    | fault r => simp [ht] at h
    | refused r => simp [ht] at h

/-! ## One tick inside a frame write -/

/-- The three things a tick inside a frame write can do: go on in the bit, go on to the next bit, or end
the frame. -/
theorem tickFrame_cases (cfg : Config) (k : Nat) (ch : Chain) (f : SegFrame) (pos : Fin 36) (ph : Fin 4)
    (inside : Fin 36 → Fin 4 → SeqPos) (after : State → State) (s : State) :
    let emitted := s.emit (bitEvent cfg ch (wire f pos.val) ph)
    (∃ h : ph.val + 1 < 4,
      tickFrame cfg k ch f pos ph inside after s = emitted.goTo (inside pos ⟨ph.val + 1, h⟩)) ∨
    (ph = 3 ∧ ∃ h : pos.val + 1 < 36,
      tickFrame cfg k ch f pos ph inside after s = emitted.goTo (inside ⟨pos.val + 1, h⟩ 0)) ∨
    (ph = 3 ∧ pos = 35 ∧
      tickFrame cfg k ch f pos ph inside after s = after (emitted.setDisp k (some f))) := by
  by_cases h1 : ph.val + 1 < 4
  · exact .inl ⟨h1, by simp [tickFrame, nextInFrame, h1]⟩
  · have hph : ph = 3 := by ext; simp; omega
    by_cases h2 : pos.val + 1 < 36
    · exact .inr (.inl ⟨hph, h2, by simp [tickFrame, nextInFrame, h1, h2]⟩)
    · exact .inr (.inr ⟨hph, by ext; simp; omega, by simp [tickFrame, nextInFrame, h1, h2]⟩)

/-! ## A whole frame write

`hstep` says that at the positions `inside pos ph` a tick is a tick of the frame write of `f` to the chain
`ch`, as long as registry and host memory are those the write began with. -/

section Frame

variable {cfg : Config} {k : Nat} {ch : Chain} {f : SegFrame} {inside : Fin 36 → Fin 4 → SeqPos}
  {after : State → State} {R : List Chain} {M : Memory}
  (hstep : ∀ s pos ph, s.seq = inside pos ph → s.reg = R → s.msg = M →
    tick cfg s = .next (tickFrame cfg k ch f pos ph inside after s))

include hstep

/-- The first three ticks of a bit write. -/
theorem ticks_three {s : State} {pos : Fin 36} (hseq : s.seq = inside pos 0) (hR : s.reg = R)
    (hM : s.msg = M) :
    ticks cfg 3 s =
      .next ((s.emitAll [bitEvent cfg ch (wire f pos.val) 0, bitEvent cfg ch (wire f pos.val) 1,
        bitEvent cfg ch (wire f pos.val) 2]).goTo (inside pos 3)) := by
  have tick_phase : ∀ (u : State) (ph : Fin 4) (h : ph.val + 1 < 4), u.seq = inside pos ph → u.reg = R →
      u.msg = M → tick cfg u =
        .next ((u.emit (bitEvent cfg ch (wire f pos.val) ph)).goTo (inside pos ⟨ph.val + 1, h⟩)) := by
    intro u ph h h1 h2 h3
    rw [hstep u pos ph h1 h2 h3]
    simp [tickFrame, nextInFrame, h]
  rw [ticks_succ_of_next (tick_phase s 0 (by decide) hseq hR hM),
    ticks_succ_of_next (tick_phase _ 1 (by decide) rfl (by simpa using hR) (by simpa using hM)),
    ticks_succ_of_next (tick_phase _ 2 (by decide) rfl (by simpa using hR) (by simpa using hM))]
  rfl

/-- A bit of a frame write that is not its last. -/
theorem ticks_bit {s : State} {p : Nat} (hp : p + 1 < 36) (hseq : s.seq = inside ⟨p, by omega⟩ 0)
    (hR : s.reg = R) (hM : s.msg = M) :
    ticks cfg 4 s =
      .next ((s.emitAll (bitEvents cfg ch (wire f p))).goTo (inside ⟨p + 1, hp⟩ 0)) := by
  rw [ticks_add (a := 3) (b := 1) (ticks_three hstep hseq hR hM),
    ticks_succ_of_next (hstep _ _ _ rfl (by simpa using hR) (by simpa using hM))]
  simp only [tickFrame, nextInFrame]
  rw [dif_neg (by simp), dif_pos hp]
  rfl

/-- The bits of a frame write before wire position `p`. -/
theorem ticks_bits {s : State} (p : Nat) (hp : p < 36) (hseq : s.seq = inside 0 0) (hR : s.reg = R)
    (hM : s.msg = M) :
    ticks cfg (4 * p) s =
      .next ((s.emitAll ((List.range p).flatMap fun p => bitEvents cfg ch (wire f p))).goTo
        (inside ⟨p, hp⟩ 0)) := by
  induction p with
  | zero =>
    rw [Nat.mul_zero, ticks_zero]
    refine congrArg _ ?_
    simp [State.goTo, ← hseq]
  | succ p ih =>
    rw [show 4 * (p + 1) = 4 * p + 4 by omega, ticks_add (ih (by omega)),
      ticks_bit hstep hp rfl (by simpa using hR) (by simpa using hM)]
    refine congrArg _ ?_
    rw [List.range_succ, List.flatMap_append, State.emitAll_append]
    simp only [List.flatMap_cons, List.flatMap_nil, List.append_nil]
    generalize s.emitAll _ = u
    rfl

/-- A whole frame write, in `n = 144` ticks. (The number is a variable, so that no proof unfolds it.) -/
theorem ticks_frame (hafter : ∀ s p, after (s.goTo p) = after s) {s : State} {n : Nat} (hn : n = 144)
    (hseq : s.seq = inside 0 0) (hR : s.reg = R) (hM : s.msg = M) :
    ticks cfg n s = .next (after (s.frameOut cfg k ch f)) := by
  have hsplit : frameEvents cfg ch f =
      ((List.range 35).flatMap fun p => bitEvents cfg ch (wire f p)) ++ bitEvents cfg ch (wire f 35) := by
    rw [frameEvents, show (36 : Nat) = 35 + 1 from rfl, List.range_succ, List.flatMap_append]
    simp only [List.flatMap_cons, List.flatMap_nil, List.append_nil]
  rw [show n = 4 * 35 + (3 + 1) from hn, ticks_add (ticks_bits hstep 35 (by omega) hseq hR hM),
    ticks_add (ticks_three hstep rfl (by simpa using hR) (by simpa using hM)),
    ticks_succ_of_next (hstep _ _ _ rfl (by simpa using hR) (by simpa using hM)), ticks_zero,
    State.frameOut, hsplit, State.emitAll_append]
  refine congrArg _ ?_
  generalize s.emitAll _ = u
  simp only [tickFrame, nextInFrame]
  rw [dif_neg (by simp), dif_neg (by simp)]
  simp only [State.goTo_emitAll, State.goTo_emit, State.goTo_setDisp, State.goTo_goTo, hafter]
  rfl

end Frame

/-! ## An animation frame -/

/-- The writes of an animation frame from module `k` down, in `c = 144` ticks each. -/
theorem ticks_modules {cfg : Config} {m t frame k c : Nat} {q : Marquee} {s : State} (hc : c = 144)
    (hk : k < s.count) (hseq : s.seq = .scr m t q frame (.write k 0 0)) :
    ticks cfg (c * (k + 1)) s =
      .next ((writeModules cfg m q (k + 1) s).goTo (.scr m t (q.advance s.msg m) frame .delay)) := by
  induction k generalizing s with
  | zero =>
    obtain ⟨ch, hch⟩ := State.exists_chain hk
    rw [show c * (0 + 1) = c by omega,
      ticks_frame (k := 0) (ch := ch) (f := q.frameFor cfg s.msg m 0)
        (inside := fun pos ph => .scr m t q frame (.write 0 pos ph))
        (after := afterModule m t q frame 0) (R := s.reg) (M := s.msg)
        (by intro u pos ph e1 e2 e3; rw [tick, e1]; simp only [e2, hch, e3]) (fun _ _ => rfl) hc hseq rfl rfl,
      writeModules, hch]
    simp only [writeModules]
    simp [afterModule]
  | succ k ih =>
    obtain ⟨ch, hch⟩ := State.exists_chain hk
    rw [show c * (k + 1 + 1) = c + c * (k + 1) by ring,
      ticks_add (ticks_frame (k := k + 1) (ch := ch) (f := q.frameFor cfg s.msg m (k + 1))
        (inside := fun pos ph => .scr m t q frame (.write (k + 1) pos ph))
        (after := afterModule m t q frame (k + 1)) (R := s.reg) (M := s.msg)
        (by intro u pos ph e1 e2 e3; rw [tick, e1]; simp only [e2, hch, e3]) (fun _ _ => rfl) hc hseq rfl rfl),
      afterModule, ih (by simp; omega) rfl]
    conv_rhs => rw [writeModules, hch]
    simp only
    refine congrArg _ ?_
    ext1 <;> simp

/-- A whole animation frame, from its first event to the first event of the next or to the end of the
command, with `c = 144` ticks for each module. -/
theorem ticks_animationFrame {cfg : Config} {m t frame c : Nat} {q : Marquee} {s : State} (hc : c = 144)
    (hseq : s.seq = s.scrollFrameStart m t q frame) :
    ticks cfg (c * s.count + 1) s =
      .next (if (q.advance s.msg m).lo < 0 then (afterFrame cfg m t q s).complete none
        else (afterFrame cfg m t q s).goTo (s.scrollFrameStart m t (q.advance s.msg m) (frame + 1))) := by
  have written : ticks cfg (c * s.count) s =
      .next ((writeModules cfg m q s.count s).goTo (.scr m t (q.advance s.msg m) frame .delay)) := by
    unfold State.scrollFrameStart at hseq
    split at hseq
    · rename_i h0
      rw [h0, Nat.mul_zero, ticks_zero, writeModules]
      refine congrArg _ ?_
      simp [State.goTo, ← hseq]
    · rename_i k h0
      rw [h0]
      exact ticks_modules hc (by omega) hseq
  rw [ticks_add written, ticks_succ_of_next (by rw [tick]; rfl), ticks_zero, tickScrollDelay]
  refine congrArg _ ?_
  split
  · rfl
  · simp only [State.goTo_emit, State.goTo_goTo, afterFrame]
    refine congrArg _ ?_
    simp [State.scrollFrameStart]

end Sys2Proof.Machine
end

