-- ==== Sys2Proof/Laws/Marquee.lean ====
section
/-! SUPPORT. The cursors of a marquee in closed form (spec/42_sequencers.md R102, R104, R105): before the
null is reached the read cursor advances, afterwards the trailing padding widens. -/

namespace Sys2Proof.Machine

open Sys2Proof

variable {M : Memory} {m L n : Nat}

/-- The cursors after `j` animation frames, as long as no null has been read. -/
theorem cursorsAfter_of_lt (hmsg : ∀ i, i < L → M.read (m + i) ≠ 0#8) (j : Nat) (hj : j < L) :
    cursorsAfter M m n j =
      { hi := if (j : Int) ≤ 2 * n - 1 then 2 * (n : Int) - 2 - j else if n = 0 then -2 else -1
        lo := 2 * n
        cur := j
        ex := false } := by
  induction j with
  | zero =>
    simp only [cursorsAfter, Marquee.init]
    congr 1
    · split <;> (try split) <;> omega
    · omega
  | succ j ih =>
    rw [cursorsAfter, ih (by omega)]
    simp only [Marquee.advance]
    rw [if_neg (by simp)]
    have := hmsg (j + 1) hj
    congr 1
    · split <;> split <;> (try split) <;> (try split) <;> omega
    · simpa using this

/-- The cursors after `j` animation frames, from the frame in which the null has been reached. -/
theorem cursorsAfter_of_le (hnull : M.read (m + L) = 0#8) (hmsg : ∀ i, i < L → M.read (m + i) ≠ 0#8)
    (hL : L ≠ 0) (j : Nat) (hj : L ≤ j) :
    cursorsAfter M m n j =
      { hi := if (j : Int) ≤ 2 * n - 1 then 2 * (n : Int) - 2 - j else if n = 0 then -2 else -1
        lo := 2 * n - ((j : Int) - L)
        cur := L
        ex := true } := by
  induction j, hj using Nat.le_induction with
  | base =>
    obtain ⟨l, rfl⟩ : ∃ l, L = l + 1 := ⟨L - 1, by omega⟩
    rw [cursorsAfter, cursorsAfter_of_lt hmsg l (by omega)]
    simp only [Marquee.advance]
    rw [if_neg (by simp)]
    congr 1
    · split <;> split <;> (try split) <;> (try split) <;> omega
    · omega
    · simpa using hnull
  | succ j hj ih =>
    rw [cursorsAfter, ih]
    simp only [Marquee.advance]
    rw [if_pos trivial]
    congr 1
    · split <;> split <;> (try split) <;> (try split) <;> omega
    · omega

end Sys2Proof.Machine
end

