-- ==== Sys2Proof/Laws/PerInstr.lean ====
section
/-! SUPPORT. The per-instruction family `TableRow`: what the encoder writes for a command belongs to the
row of spec/opcode_table.json that has the command's mnemonic. It holds of every command, well formed or
not, since no operand reaches a bit outside its field. -/

namespace Sys2Proof.Laws

open Sys2Proof

/-- The word of `i` belongs to the row of the opcode table with `i`'s mnemonic. -/
def TableRow.Statement (i : Instr) : Prop :=
  ∃ r ∈ opcodeTable, r.mnemonic = i.mnemonic ∧ r.matchesWord (encode i) = true

/-- A word belongs to a row when each of its fields agrees with the row's under the row's mask. -/
theorem TableRow.matches_of_fields {name : String} {op a mo ma po pa : BitVec 8} {w mw pw : BitVec 32}
    (hop : op &&& mo = po) (ha : a &&& ma = pa) (hw : w &&& mw = pw) :
    OpcodeRow.matchesWord ⟨name, ofFields po pa pw, ofFields mo ma mw⟩ (ofFields op a w) = true := by
  simp only [OpcodeRow.matchesWord, decide_eq_true_eq]
  rw [ofFields_and, hop, ha, hw]

/-- A mask that lies above an 8-bit operand clears it. -/
theorem TableRow.byte_masked (c : BitVec 8) : c.setWidth 32 &&& 0xFFFFFF00#32 = 0#32 := by
  revert c; decide

/-- A mask that lies above two 8-bit operands clears them. -/
theorem TableRow.chars_masked (l r : BitVec 8) : (l ++ r).setWidth 32 &&& 0xFFFF0000#32 = 0#32 := by
  rw [show (l ++ r).setWidth 32 = 0#16 ++ (l ++ r) by
        rw [BitVec.setWidth_eq_append (by omega)]; rfl,
    show 0xFFFF0000#32 = 0xFFFF#16 ++ 0#16 by decide, BitVec.and_append]
  simp

theorem TableRow.regchain (d c : Pin) : TableRow.Statement (.regchain d c) :=
  ⟨_, List.mem_cons_self, rfl,
    TableRow.matches_of_fields (po := 0x01#8) (pa := 0#8) (pw := 0#32) (mo := 0xFF#8) (ma := 0#8)
      (mw := 0xFFFFFF00#32) rfl (by simp) (TableRow.byte_masked _)⟩

theorem TableRow.wrbit (k : Nat) (b : Bool) : TableRow.Statement (.wrbit k b) :=
  ⟨⟨"WRBIT", 0x020000000000#48, 0xFF00FFFFFFFE#48⟩, by decide, rfl,
    TableRow.matches_of_fields (po := 0x02#8) (pa := 0#8) (pw := 0#32) (mo := 0xFF#8) (ma := 0#8)
      (mw := 0xFFFFFFFE#32) rfl (by simp) (by cases b <;> rfl)⟩

theorem TableRow.wrframe (k : Nat) (f : SegFrame) : TableRow.Statement (.wrframe k f) :=
  ⟨⟨"WRFRAME", 0x030000000000#48, 0xFF0000000000#48⟩, by decide, rfl,
    TableRow.matches_of_fields (po := 0x03#8) (pa := 0#8) (pw := 0#32) (mo := 0xFF#8) (ma := 0#8)
      (mw := 0#32) rfl (by simp) (by simp)⟩

theorem TableRow.chmask (c : CharCode) : TableRow.Statement (.chmask c) :=
  ⟨⟨"CHMASK", 0x040000000000#48, 0xFF00FFFFFFFF#48⟩, by decide, rfl,
    TableRow.matches_of_fields (po := 0x04#8) (pa := 0#8) (pw := 0#32) (mo := 0xFF#8) (ma := 0#8)
      (mw := 0xFFFFFFFF#32) rfl (by simp) rfl⟩

theorem TableRow.compose (l r : CharCode) : TableRow.Statement (.compose l r) :=
  ⟨⟨"COMPOSE", 0x050000000000#48, 0xFFFFFFFF0000#48⟩, by decide, rfl,
    TableRow.matches_of_fields (po := 0x05#8) (pa := 0#8) (pw := 0#32) (mo := 0xFF#8) (ma := 0xFF#8)
      (mw := 0xFFFF0000#32) rfl rfl (TableRow.chars_masked l r)⟩

theorem TableRow.wrchars (k : Nat) (l r : CharCode) : TableRow.Statement (.wrchars k l r) :=
  ⟨⟨"WRCHARS", 0x060000000000#48, 0xFF00FFFF0000#48⟩, by decide, rfl,
    TableRow.matches_of_fields (po := 0x06#8) (pa := 0#8) (pw := 0#32) (mo := 0xFF#8) (ma := 0#8)
      (mw := 0xFFFF0000#32) rfl (by simp) (TableRow.chars_masked l r)⟩

theorem TableRow.scroll (m t : Nat) : TableRow.Statement (.scroll m t) :=
  ⟨⟨"SCROLL", 0x070000000000#48, 0xFFFF00000000#48⟩, by decide, rfl,
    TableRow.matches_of_fields (po := 0x07#8) (pa := 0#8) (pw := 0#32) (mo := 0xFF#8) (ma := 0xFF#8)
      (mw := 0#32) rfl rfl (by simp)⟩

theorem TableRow.dtest (k : Nat) (s : CharCode) : TableRow.Statement (.dtest k s) :=
  ⟨⟨"DTEST", 0x080000000000#48, 0xFF00FFFFFF00#48⟩, by decide, rfl,
    TableRow.matches_of_fields (po := 0x08#8) (pa := 0#8) (pw := 0#32) (mo := 0xFF#8) (ma := 0#8)
      (mw := 0xFFFFFF00#32) rfl (by simp) (TableRow.byte_masked _)⟩

end Sys2Proof.Laws
end

