-- ==== Sys2Proof/Tests/Slice0.lean ====
section
/-! SUPPORT. Tests: expected values are those of spec/95_test_vectors.md, named by their numbers, or read
off the rule that a comment names; no value was taken from the model. Then, for every statement with
hypotheses, a witness that meets them. -/

namespace Sys2Proof.Tests

open Sys2Proof Sys2Proof.Machine

-- The tests are evaluated one after another, which bounds the number of threads (and their stacks).
set_option Elab.async false

/-! ## Small states -/

/-- The test configuration `TC1` (00_scope.md R4). -/
def tc1 : Config where
  maxChains := 4
  fontMin := 0x20#8
  fontMax := 0x5F#8
  font := fun c => c.setWidth 16 * 0x0101#16

/-- A pin by its number in a command word. -/
def pin (b : BitVec 8) : Pin := pinOfByte b

/-- A chain on two pins by their numbers. -/
def pair (d c : BitVec 8) : Chain := ⟨pin d, pin c⟩

/-- After reset with message bytes stored and the given inputs to come. -/
def hostState (cells : List Host.Cell) (inputs : List HostInput) : State :=
  { State.reset with msg := ⟨cells, 0#8⟩, inputs := inputs }

/-- Chain 0 on pins 2 and 3, registered and low (the start state of V16 to V19). -/
def oneChain : State :=
  { State.reset with
    reg := [pair 2 3]
    disp := [none]
    pins := [(2, ⟨.output, .driven .low⟩), (3, ⟨.output, .driven .low⟩)]
    trace := [.cfg (pin 2), .cfg (pin 3), .set (pin 2) .low, .set (pin 3) .low]
    res := some 1#32 }

/-- `oneChain` with a message of the host's. -/
def oneChainWith (cells : List Host.Cell) : State := { oneChain with msg := ⟨cells, 0#8⟩ }

/-- The message `"HI"` at address 0x0100 (P2). -/
def hi : List Host.Cell := [(0x100, 0x48#8), (0x101, 0x49#8)]

/-- `n` chains registered, on pins 2 and 3 each. -/
def chains (n : Nat) : State := { State.reset with reg := List.replicate n (pair 2 3) }

/-- The engine's registry is full. -/
def full : State := chains Config.engine.maxChains

theorem full_count : full.count = Config.engine.maxChains := by simp [full, chains, State.count]

theorem reset_count_ne : State.reset.count ≠ Config.engine.maxChains :=
  (Nat.lt_of_lt_of_le Nat.zero_lt_one Config.engine.maxChains_pos).ne

/-- `oneChain` in the middle of a bare `WRBIT 0, 1`, after its data and clock events. -/
def midBit : State :=
  { oneChain with
    pins := [(2, ⟨.output, .driven .high⟩), (3, ⟨.output, .driven .high⟩)]
    trace := oneChain.trace ++ [.set (pin 2) .high, .set (pin 3) .high]
    res := none
    seq := .bit 0 true 2 }

theorem midBit_inv : midBit.Inv Config.engine where
  count_le := Config.engine.maxChains_pos
  disp_length := rfl
  msg_wf := rfl
  pins_wf := by decide
  pins_replay := by decide
  registered_output := by decide
  clock_level := by decide
  seq_ok := (by decide : 0 < midBit.count)

/-- `oneChain` meets the invariant, whatever the host will do. -/
theorem oneChain_inv (inputs : List HostInput) :
    State.Inv Config.engine { oneChain with inputs := inputs } where
  count_le := Config.engine.maxChains_pos
  disp_length := rfl
  msg_wf := rfl
  pins_wf := (by decide : sparseWf PinState.untouched oneChain.pins = true)
  pins_replay := (by decide : oneChain.pins = replay oneChain.trace)
  registered_output :=
    (by decide : ∀ ch ∈ oneChain.reg,
      oneChain.pinMode ch.data = .output ∧ oneChain.pinMode ch.clock = .output)
  clock_level :=
    (by decide : ∀ ch ∈ oneChain.reg, (∀ ch' ∈ oneChain.reg, ch'.data ≠ ch.clock) →
      oneChain.pinLevel ch.clock = .driven (oneChain.clockLevel ch))
  seq_ok := trivial

/-! ## Well-formedness: one ill-formed term for each check (R53, R59) -/

/-- A pin beyond those of the command word, if the platform has one: no word encodes it. -/
theorem test_wf_regchain_data (p : Pin) (h : p.number = 256) : (Instr.regchain p (pin 0)).wf = false := by
  simp [Instr.wf, fitsField, h]

theorem test_wf_regchain_clock (p : Pin) (h : p.number = 256) : (Instr.regchain (pin 0) p).wf = false := by
  simp [Instr.wf, fitsField, h]

theorem test_wf_wrbit_chain : (Instr.wrbit 256 true).wf = false := by decide
theorem test_wf_wrframe_chain : (Instr.wrframe 256 0#32).wf = false := by decide
theorem test_wf_wrchars_chain : (Instr.wrchars 256 0x48#8 0x49#8).wf = false := by decide
theorem test_wf_scroll_address : (Instr.scroll 65536 0).wf = false := by decide
theorem test_wf_scroll_delay : (Instr.scroll 0 65536).wf = false := by decide
theorem test_wf_dtest_chain : (Instr.dtest 256 0x20#8).wf = false := by decide

/-! ## Decoding: the words of V1 to V10, bit by bit from R53 -/

theorem test_decode_regchain : decode 0x010200000003#48 = .ok (.regchain (pin 2) (pin 3)) := by decide
theorem test_decode_regchain_largest_pin : decode 0x01FF00000000#48 = .ok (.regchain (pin 255) (pin 0)) := by decide
theorem test_decode_wrbit : decode 0x020000000001#48 = .ok (.wrbit 0 true) := by decide
theorem test_decode_wrframe : decode 0x0300AB1234CD#48 = .ok (.wrframe 0 0xAB1234CD#32) := by decide
theorem test_decode_chmask : decode 0x046100000000#48 = .ok (.chmask 0x61#8) := by decide
theorem test_decode_compose : decode 0x050000004849#48 = .ok (.compose 0x48#8 0x49#8) := by decide
theorem test_decode_wrchars : decode 0x060000004849#48 = .ok (.wrchars 0 0x48#8 0x49#8) := by decide
theorem test_decode_scroll : decode 0x0700010000FA#48 = .ok (.scroll 0x0100 250) := by decide
theorem test_decode_dtest : decode 0x080000000020#48 = .ok (.dtest 0 0x20#8) := by decide

/-- V10a to V10c: reserved opcodes. -/
theorem test_decode_reserved_opcodes :
    decode 0x000000000000#48 = .error (.reservedOpcode 0x00#8) ∧
    decode 0x090000000000#48 = .error (.reservedOpcode 0x09#8) ∧
    decode 0xFF0000000000#48 = .error (.reservedOpcode 0xFF#8) := by decide

/-- V10d to V10j: reserved fields. -/
theorem test_decode_reserved_fields :
    decode 0x010200000103#48 = .error (.reservedField 0x01#8) ∧
    decode 0x020000000002#48 = .error (.reservedField 0x02#8) ∧
    decode 0x040000000001#48 = .error (.reservedField 0x04#8) ∧
    decode 0x050100004849#48 = .error (.reservedField 0x05#8) ∧
    decode 0x060001004849#48 = .error (.reservedField 0x06#8) ∧
    decode 0x070100000000#48 = .error (.reservedField 0x07#8) ∧
    decode 0x080000000100#48 = .error (.reservedField 0x08#8) := by decide

/-- V1 to V9 the other way. -/
theorem test_encode :
    encode (.regchain (pin 2) (pin 3)) = 0x010200000003#48 ∧ encode (.wrbit 0 true) = 0x020000000001#48 ∧
    encode (.wrframe 0 0xAB1234CD#32) = 0x0300AB1234CD#48 ∧ encode (.chmask 0x61#8) = 0x046100000000#48 ∧
    encode (.compose 0x48#8 0x49#8) = 0x050000004849#48 ∧
    encode (.wrchars 0 0x48#8 0x49#8) = 0x060000004849#48 ∧
    encode (.scroll 0x0100 250) = 0x0700010000FA#48 ∧ encode (.dtest 0 0x20#8) = 0x080000000020#48 := by
  decide

/-! ## Commands, under `TC1` -/

/-- V11. -/
theorem test_regchain_first :
    let t := regchain tc1 (pin 2) (pin 3) State.reset
    t.trace = [.cfg (pin 2), .cfg (pin 3), .set (pin 2) .low, .set (pin 3) .low] ∧ t.reg = [pair 2 3] ∧
      t.disp = [none] ∧ t.res = some 1#32 ∧ t.pin (pin 2) = ⟨.output, .driven .low⟩ ∧ t.pin (pin 3) = ⟨.output, .driven .low⟩ := by
  decide

/-- V12. -/
theorem test_regchain_full : regchain tc1 (pin 18) (pin 19) (chains 4) = { chains 4 with res := some 0#32 } := by
  decide

/-- V16. -/
theorem test_wrbit_one :
    let t := wrbit tc1 0 true oneChain
    t.trace = oneChain.trace ++ [.set (pin 2) .high, .set (pin 3) .high, .dlyUs 10, .set (pin 3) .low] ∧
      t.pinLevel (pin 2) = .driven .high ∧ t.pinLevel (pin 3) = .driven .low ∧ t.disp = [none] ∧ t.res = none := by
  decide

/-- V18. -/
theorem test_wrbit_out_of_range :
    wrbit tc1 1 true oneChain =
      { oneChain with fault := some (.chainIndexOutOfRange 1), res := none } := by
  decide

/-- The wire string of V24. -/
theorem test_wire :
    ((List.range 36).map fun p => if wire 0xAB1234CD#32 p then '1' else '0') =
      "101011001100101100010010001101010100".toList := by
  decide +kernel

/-- V24: the number of events, the last four, the pins and `DISP`. -/
theorem test_wrframe :
    let t := wrframe tc1 0 0xAB1234CD#32 oneChain
    t.trace.length = 148 ∧ t.trace.count (.set (pin 2) .high) = 16 ∧
      t.trace.drop 144 = [.set (pin 2) .low, .set (pin 3) .high, .dlyUs 10, .set (pin 3) .low] ∧
      t.pins = oneChain.pins ∧ t.disp = [some 0xAB1234CD#32] := by
  decide +kernel

/-- V33 to V44. -/
theorem test_charMask :
    [0x00#8, 0x1F#8, 0x20#8, 0x41#8, 0x61#8, 0x5A#8, 0x7A#8, 0x5B#8, 0x5F#8, 0x60#8, 0x7B#8, 0x7E#8, 0x7F#8,
      0x80#8, 0xFF#8].map (charMask tc1) =
    [0#16, 0#16, 0x2020#16, 0x4141#16, 0x4141#16, 0x5A5A#16, 0x5A5A#16, 0x5B5B#16, 0x5F5F#16, 0#16, 0#16,
      0#16, 0#16, 0#16, 0#16] := by
  decide

/-- V37 as a command. -/
theorem test_chmask : chmask tc1 0x61#8 oneChain = { oneChain with res := some 0x00004141#32 } := by decide

/-- V45 to V53. -/
theorem test_frameOf :
    [(0x1234#16, 0xABCD#16), (0xFFFF#16, 0x0000#16), (0x0000#16, 0xFFFF#16), (0x0001#16, 0x0100#16),
      (0x8000#16, 0x0080#16), (0x0000#16, 0xFF00#16)].map (fun p => frameOf p.1 p.2) =
    [0xAB1234CD#32, 0x00FFFF00#32, 0xFF0000FF#32, 0x01000100#32, 0x00800080#32, 0xFF000000#32] := by
  decide

/-- V54 as a command. -/
theorem test_compose :
    compose tc1 0x48#8 0x49#8 oneChain = { oneChain with res := some 0x49484849#32 } := by
  decide

/-- V90. -/
theorem test_wrchars :
    let t := wrchars tc1 0 0x48#8 0x49#8 oneChain
    t.trace.length = 148 ∧ t.trace.count (.set (pin 2) .high) = 11 ∧ t.disp = [some 0x49484849#32] := by
  decide +kernel

/-- V93. -/
theorem test_wrchars_out_of_range :
    wrchars tc1 255 0#8 0#8 oneChain =
      { oneChain with fault := some (.chainIndexOutOfRange 255), res := none } := by
  decide

/-- The cursors of V65, and the frames sent in P2. -/
theorem test_scroll_frames :
    (List.range 6).map (cursorsAfter ⟨[(0x200, 0x41#8)], 0#8⟩ 0x200 2) =
      [⟨2, 4, 0, false⟩, ⟨1, 4, 1, true⟩, ⟨0, 3, 1, true⟩, ⟨-1, 2, 1, true⟩, ⟨-1, 1, 1, true⟩,
        ⟨-1, 0, 1, true⟩] ∧
    (List.range 5).map (fun j => (cursorsAfter ⟨hi, 0#8⟩ 0x100 1 j).frameFor tc1 ⟨hi, 0#8⟩ 0x100 0) =
      [0x48000048#32, 0x49484849#32, 0x00494900#32, 0#32, 0#32] := by
  decide

/-- V68: with no chain registered `"AB"` gives three delays. -/
theorem test_scroll :
    scroll tc1 0x100 250 (hostState hi []) =
      { hostState hi [] with trace := [.dlyMs 250, .dlyMs 250, .dlyMs 250] } := by
  decide +kernel

/-- V78. -/
theorem test_dtest :
    let t := dtest tc1 0 0x5D#8 oneChain
    t.trace.length = 294 ∧ t.trace.count (.dlyMs 1500) = 2 ∧ t.disp = [some 0x005F5F00#32] := by
  decide +kernel

/-- A font that ends among the lower-case letters. -/
def lateFont : Config where
  fontMax := 0x61#8
  font := fun c => c.setWidth 16 * 0x0101#16

/-- V74, and the pairs of `lateFont`: `'a'` shows as `'A'` (R113(d)), past `FONT_MAX` is blank (R113(b)). -/
theorem test_dtest_edges :
    dtest tc1 0 0x60#8 oneChain = { oneChain with res := none } ∧
    sweepFrame lateFont 0x60 = frameOf 0x6060#16 0x4141#16 ∧
    sweepFrame lateFont 0x61 = frameOf 0x4141#16 0x0000#16 := by
  decide

/-- V80: the first reason is kept. -/
theorem test_first_fault_is_kept :
    (wrframe tc1 2 0#32 (wrchars tc1 3 0x41#8 0x42#8 oneChain)).fault = some (.chainIndexOutOfRange 3) := by
  decide

/-- R17: the position after the last phase of a bit, and after the last event of a frame. -/
theorem test_nextInFrame :
    nextInFrame 0 0 = some (0, 1) ∧ nextInFrame 0 3 = some (1, 0) ∧ nextInFrame 35 3 = none := by decide

/-! ## The fetch: the first word after reset (R73, R125) -/

theorem test_first_word :
    step (State.reset.withFetchWord 48 0x080000000020) =
      .next { State.reset with fault := some (.chainIndexOutOfRange 0) } := rfl

/-! ## Witnesses: each statement's hypotheses are met -/

theorem witness_DecoderIsTotalAndInvertsEncoder :
    (Instr.regchain (pin 255) (pin 255)).wf = true ∧ (Instr.scroll 65535 65535).wf = true := by decide

theorem witness_EncoderInvertsDecoder : decode 0x01FF00000000#48 = .ok (.regchain (pin 255) (pin 0)) := by decide

theorem witness_DecoderAgreesWithOpcodeTable :
    (∃ r ∈ opcodeTable, r.matchesWord 0x01FF00000000#48 = true) ∧
    decode 0x01FF00000000#48 = .ok (.regchain (pin 255) (pin 0)) := by decide

/-- An idle engine about to take the word `w`, with no fault marked. -/
theorem word_waits (w : CmdWord) :
    (hostState [] [.word w]).seq = .idle ∧ (hostState [] [.word w]).inputs = .word w :: [] ∧
      (hostState [] [.word w]).fault = none := ⟨rfl, rfl, rfl⟩

/-- The three edges of the reserved opcodes: 0x00, 0x09, 0xFF; the rest of the hypotheses is `word_waits`. -/
theorem witness_ReservedOpcodeIsInvalid :
    (opField 0x000000000000#48 = 0x00#8 ∨ 0x09#8 ≤ opField 0x000000000000#48) ∧
    (opField 0x090000000000#48 = 0x00#8 ∨ 0x09#8 ≤ opField 0x090000000000#48) ∧
    (opField 0xFF0000000000#48 = 0x00#8 ∨ 0x09#8 ≤ opField 0xFF0000000000#48) := by
  decide

/-- The lowest reserved bit of each command; the rest of the hypotheses is `word_waits`. -/
theorem witness_ReservedFieldIsInvalid :
    (opField 0x010000000100#48 = 0x01#8 ∧ BitVec.extractLsb' 8 24 0x010000000100#48 ≠ 0#24) ∧
    (opField 0x020000000002#48 = 0x02#8 ∧ BitVec.extractLsb' 1 31 0x020000000002#48 ≠ 0#31) ∧
    (opField 0x040000000001#48 = 0x04#8 ∧ wField 0x040000000001#48 ≠ 0#32) ∧
    (opField 0x050000010000#48 = 0x05#8 ∧ wHigh 0x050000010000#48 ≠ 0#16) ∧
    (opField 0x050100000000#48 = 0x05#8 ∧ aField 0x050100000000#48 ≠ 0#8) ∧
    (opField 0x060000010000#48 = 0x06#8 ∧ wHigh 0x060000010000#48 ≠ 0#16) ∧
    (opField 0x070100000000#48 = 0x07#8 ∧ aField 0x070100000000#48 ≠ 0#8) ∧
    (opField 0x080000000100#48 = 0x08#8 ∧ BitVec.extractLsb' 8 24 0x080000000100#48 ≠ 0#24) := by
  decide

/-- The highest reserved bit of each command. -/
theorem witness_ReservedFieldIsInvalid_high :
    (opField 0x010080000000#48 = 0x01#8 ∧ BitVec.extractLsb' 8 24 0x010080000000#48 ≠ 0#24) ∧
    (opField 0x020080000000#48 = 0x02#8 ∧ BitVec.extractLsb' 1 31 0x020080000000#48 ≠ 0#31) ∧
    (opField 0x040080000000#48 = 0x04#8 ∧ wField 0x040080000000#48 ≠ 0#32) ∧
    (opField 0x058000000000#48 = 0x05#8 ∧ aField 0x058000000000#48 ≠ 0#8) ∧
    (opField 0x060080000000#48 = 0x06#8 ∧ wHigh 0x060080000000#48 ≠ 0#16) ∧
    (opField 0x078000000000#48 = 0x07#8 ∧ aField 0x078000000000#48 ≠ 0#8) ∧
    (opField 0x080080000000#48 = 0x08#8 ∧ BitVec.extractLsb' 8 24 0x080080000000#48 ≠ 0#24) := by
  decide

theorem witness_StepRunsDecodedCommand :
    (hostState [] [.word 0x046100000000#48]).seq = .idle ∧
    (hostState [] [.word 0x046100000000#48]).inputs = .word 0x046100000000#48 :: [] ∧
    decode 0x046100000000#48 = .ok (.chmask 0x61#8) ∧
    (hostState [] [.command (.chmask 0x61#8)]).inputs = .command (.chmask 0x61#8) :: [] ∧
    decodeTableWord 48 0x046100000000 = some (.chmask 0x61#8) := by
  decide

theorem witness_HostInputsOnIdleEngine :
    State.reset.seq = .idle ∧ State.reset.inputs = [] ∧
    (hostState [] [.store 5 0x41#8]).seq = .idle ∧
    (hostState [] [.store 5 0x41#8]).inputs = .store 5 0x41#8 :: [] ∧
    (hostState [] [.newInstance]).seq = .idle ∧ (hostState [] [.newInstance]).inputs = .newInstance :: [] := by
  decide

/-- The last stored byte of a message, overwritten; the byte before it is another address. -/
theorem witness_HostStoreReadsBack :
    (hostState hi [.store 0x101 0x00#8]).msg.wf = true ∧ (hostState hi [.store 0x101 0x00#8]).seq = .idle ∧
    (hostState hi [.store 0x101 0x00#8]).inputs = .store 0x101 0x00#8 :: [] ∧ 0x100 ≠ 0x101 := by
  decide

/-- One state in the middle of a command, one about to run a command. -/
theorem witness_StepKeepsInvariant :
    (∃ t, midBit.Inv Config.engine ∧ step midBit = .next t) ∧
    (∃ s t, s.Inv Config.engine ∧ s.inputs = [.command (.wrbit 0 true)] ∧ step s = .next t) :=
  ⟨⟨_, midBit_inv, rfl⟩, ⟨_, _, oneChain_inv [.command (.wrbit 0 true)], rfl, rfl⟩⟩

theorem witness_EventStepKeepsInvariant :
    ∃ t, midBit.Inv Config.engine ∧ eventStep Config.engine midBit = .next t ∧ t.seq = .bit 0 true 3 :=
  ⟨_, midBit_inv, rfl, rfl⟩

theorem witness_StepNeverStops : midBit.Inv Config.engine := midBit_inv

theorem witness_RegchainAppendsChain :
    full.count = Config.engine.maxChains ∧ State.reset.count ≠ Config.engine.maxChains ∧
    sparseWf PinState.untouched State.reset.pins = true ∧ (pin 255).number < 256 :=
  ⟨full_count, reset_count_ne, by decide, by decide⟩

theorem witness_FullRegistryIsSilent : full.count = Config.engine.maxChains ∧ full.seq = .idle :=
  ⟨full_count, rfl⟩

theorem witness_RegistrySlotsAreWrittenOnce :
    (∃ t, exec (.wrbit 0 true) oneChain = .next t) ∧ 0 < oneChain.count ∧
    oneChain.count ≤ Config.engine.maxChains :=
  ⟨⟨_, rfl⟩, by decide, Config.engine.maxChains_pos⟩

/-- Two different pins and (for the positions before the first `SET`) two equal ones, all of them fresh. -/
theorem witness_ClockLevelUnknownDuringRegistration :
    State.reset.count ≠ tc1.maxChains ∧ sparseWf PinState.untouched State.reset.pins = true ∧
    State.reset.pin (pin 2) = .untouched ∧ State.reset.pin (pin 3) = .untouched ∧
    (pin 2 = pin 2 ∨ pin 2 = pin 3) ∧ (pin 3 = pin 2 ∨ pin 3 = pin 3) ∧ pin 3 ≠ pin 2 := by
  decide

/-- The least index out of range is `COUNT` itself. The same states serve the statements about `WRFRAME`,
`WRCHARS`, `DTEST` and raising. -/
theorem witness_WrbitSendsOneBit :
    oneChain.reg[0]? = some (pair 2 3) ∧ sparseWf PinState.untouched oneChain.pins = true ∧
    pin 2 ≠ pin 3 ∧ oneChain.count ≤ 1 ∧ State.reset.count ≤ 0 ∧ 255 < 256 := by
  decide

theorem witness_WrframeSendsProtocolFrame :
    oneChain.reg[0]? = some (pair 2 3) ∧ sparseWf PinState.untouched oneChain.pins = true ∧
    oneChain.count ≤ 1 ∧ 255 < 256 := by
  decide

theorem witness_WrframeEventCounts : oneChain.reg[0]? = some (pair 2 3) ∧ pin 2 ≠ pin 3 := by decide

theorem witness_ReceiverSamplesProtocolFrame :
    (pair 2 3).data ≠ (pair 2 3).clock := by decide

/-- A module on pins of its own; one that shares the clock only; one whose clock pin is the data pin of the
written chain; one whose two pins are those of the written chain the other way round. -/
theorem witness_DistinctPinsIsolateChains :
    let ch : Chain := pair 2 3
    let apart : Chain := pair 4 5
    let sharing : Chain := pair 4 3
    let clocked : Chain := pair 4 2
    let swapped : Chain := pair 3 2
    (apart.clock ≠ ch.data ∧ apart.clock ≠ ch.clock) ∧
    (sharing.clock = ch.clock ∧ ch.data ≠ ch.clock ∧ sharing.data ≠ ch.data ∧ sharing.data ≠ ch.clock) ∧
    (clocked.clock = ch.data ∧ ch.data ≠ ch.clock ∧ clocked.data ≠ ch.data ∧ clocked.data ≠ ch.clock) ∧
    (swapped.clock = ch.data ∧ ch.data ≠ ch.clock ∧ swapped.data = ch.clock) := by
  decide

theorem witness_WireFunctionIsProtocolFrame : 2 ≤ 33 ∧ 33 ≤ 33 ∧ 35 < 36 := by decide

/-- One code that folds and one that does not; one out of range and one in range. -/
theorem witness_ChmaskReturnsMask :
    0x41#8 = (if 0x61#8 ≤ 0x61#8 ∧ 0x61#8 ≤ 0x7A#8 then 0x61#8 - 0x20#8 else 0x61#8) ∧
    0x7B#8 = (if 0x61#8 ≤ 0x7B#8 ∧ 0x7B#8 ≤ 0x7A#8 then 0x7B#8 - 0x20#8 else 0x7B#8) ∧
    (tc1.fontMin ≤ 0x41#8 ∧ 0x41#8 ≤ tc1.fontMax) ∧ tc1.fontMax < 0x7B#8 ∧ 0x1F#8 < tc1.fontMin := by
  decide

/-- A font that differs from that of `TC1` at the lower-case letters alone. -/
def lowerCaseFont : Config :=
  { tc1 with font := fun c => if 0x61#8 ≤ c ∧ c ≤ 0x7A#8 then 0#16 else tc1.font c }

theorem witness_CharMaskProperties :
    (0x61#8 ≤ 0x7A#8 ∧ 0x7A#8 ≤ 0x7A#8) ∧ (foldCase 0x1F#8 < tc1.fontMin ∨ tc1.fontMax < foldCase 0x1F#8) ∧
    (0x1F#8 ≤ 0x1F#8 ∨ 0x7F#8 ≤ 0x1F#8) ∧ (0x7F#8 ≤ 0x1F#8 ∨ 0x7F#8 ≤ 0x7F#8) ∧
    (tc1.fontMin = lowerCaseFont.fontMin ∧ tc1.fontMax = lowerCaseFont.fontMax ∧
      ∀ u, tc1.fontMin ≤ u → u ≤ tc1.fontMax → ¬ (0x61#8 ≤ u ∧ u ≤ 0x7A#8) →
        tc1.font u = lowerCaseFont.font u) ∧
    ((0x7B#8 ≤ 0x7E#8 ∧ 0x7E#8 ≤ 0x7E#8) ∨ (0x5B#8 ≤ 0x7E#8 ∧ 0x7E#8 ≤ 0x60#8)) := by
  refine ⟨by decide, by decide, by decide, by decide, ⟨rfl, rfl, fun u _ _ h => ?_⟩, by decide⟩
  simp only [lowerCaseFont]
  rw [if_neg h]

theorem witness_ComposeProperties :
    (foldCase 0x1F#8 < tc1.fontMin ∨ tc1.fontMax < foldCase 0x1F#8) ∧
    (foldCase 0x80#8 < tc1.fontMin ∨ tc1.fontMax < foldCase 0x80#8) ∧ (8 ≤ 23 ∧ 23 < 24) ∧
    (7 < 8 ∨ 24 ≤ 7) ∧ (0x61#8 ≤ 0x7A#8 ∧ 0x7A#8 ≤ 0x7A#8) := by
  decide

theorem witness_WrcharsSendsComposedFrame :
    oneChain.reg[0]? = some (pair 2 3) ∧ sparseWf PinState.untouched oneChain.pins = true ∧
    oneChain.disp.length = oneChain.count ∧ oneChain.count ≤ 1 ∧ 255 < 256 := by
  decide

/-- An index out of range on a clean and on a marked state; an invalid word on both. -/
theorem witness_RaisingHasNoOtherEffect :
    let marked : State := { oneChain with fault := some (.chainIndexOutOfRange 7) }
    let bad (s : State) : State := { s with inputs := [.word 0x090000000000#48] }
    (oneChain.count ≤ 1 ∧ oneChain.fault = none ∧ marked.count ≤ 1 ∧
      marked.fault = some (.chainIndexOutOfRange 7)) ∧
    ((bad oneChain).seq = .idle ∧ (bad oneChain).inputs = .word 0x090000000000#48 :: [] ∧
      (bad oneChain).fault = none ∧ (bad marked).fault = some (.chainIndexOutOfRange 7) ∧
      decode 0x090000000000#48 = .error (.reservedOpcode 0x09#8)) := by
  decide

theorem witness_FaultMarkIsSticky :
    (∃ t, exec (.wrbit 1 true) oneChain = .next t) ∧ oneChain.fault = none ∧
    (∃ t, exec (.wrbit 1 true) { oneChain with fault := some (.chainIndexOutOfRange 7) } = .next t) ∧
    (hostState [] [.newInstance]).seq = .idle ∧ (hostState [] [.newInstance]).inputs = .newInstance :: [] ∧
    (∃ t, step (hostState [] [.newInstance]) = .next t) :=
  ⟨⟨_, rfl⟩, rfl, ⟨_, rfl⟩, rfl, rfl, ⟨_, rfl⟩⟩

theorem witness_EmptyScrollDoesNothing : oneChain.msg.read 5 = 0#8 ∧ oneChain.seq = .idle := by decide

theorem witness_ScrollEmitsClosedForm :
    (oneChainWith hi).msg.messageLength 0x100 = some 2 ∧ 2 ≠ 0 ∧
    (oneChainWith hi).disp.length = (oneChainWith hi).count ∧
    sparseWf PinState.untouched (oneChainWith hi).pins = true := by
  decide +kernel

/-- The first and the last animation frame, the first and the last digit position. The clause about the
digits between the two paddings is met in frame 1 at digit 1. -/
theorem witness_CursorsShowClosedForm :
    let M : Memory := ⟨hi, 0#8⟩
    M.messageLength 0x100 = some 2 ∧ 2 ≠ 0 ∧ (1 ≤ 1 ∧ 5 ≤ 2 + 2 * 1 + 1) ∧ (0 < 2 * 1 ∧ 1 < 2 * 1) ∧
    (cursorsAfter M 0x100 1 0).hi < 1 ∧ 1 < (cursorsAfter M 0x100 1 0).lo := by
  decide +kernel

theorem witness_ScrollFrameCount :
    (oneChainWith hi).msg.messageLength 0x100 = some 2 ∧ 2 ≠ 0 ∧ (2 ≤ 2 ∧ 5 ≤ 2 + 2 * 1 + 1) ∧ 1 < 2 * 1 ∧
    (oneChainWith hi).count = 1 := by
  decide +kernel

theorem witness_ScrollWithoutChains :
    (hostState hi []).msg.messageLength 0x100 = some 2 ∧ 2 ≠ 0 ∧ (hostState hi []).reg = [] := by
  decide +kernel

/-- Host memory that differs beyond the null. -/
theorem witness_ScrollReadsOnlyTheMessage :
    (oneChainWith hi).msg.messageLength 0x100 = some 2 ∧
    ∀ i, i ≤ 2 → (⟨hi ++ [(0x103, 0x58#8)], 0#8⟩ : Memory).read (0x100 + i) =
      (oneChainWith hi).msg.read (0x100 + i) := by
  decide +kernel

theorem witness_UnterminatedScrollNeverEnds :
    ∀ i, ({ oneChain with msg := ⟨[], 0x41#8⟩ } : State).msg.read (0x100 + i) ≠ 0#8 := by
  intro i
  exact (by decide : 0x41#8 ≠ 0#8)

theorem witness_DtestSweepsPairs :
    oneChain.reg[0]? = some (pair 2 3) ∧ sparseWf PinState.untouched oneChain.pins = true ∧
    oneChain.count ≤ 1 ∧ 255 < 256 ∧
    (0x5E ≤ tc1.fontMax.toNat ∧ 0x5E + 1 ≤ tc1.fontMax.toNat) ∧
    (0x5F ≤ tc1.fontMax.toNat ∧ 0x5F = tc1.fontMax.toNat ∧
      ¬ (0x60#8 ≤ tc1.fontMax ∧ tc1.fontMax ≤ 0x79#8)) ∧
    0x61 = lateFont.fontMax.toNat := by
  decide

/-- The last step of a sweep; an even sweep, whose last pair is `FONT_MAX` and a blank; a blank pair. -/
theorem witness_DtestStepProperties :
    1 < sweepSteps tc1 0x5D ∧ (0x5D ≤ tc1.fontMax.toNat ∧ (tc1.fontMax.toNat - 0x5D) % 2 = 0) ∧
    ¬ (0x60#8 ≤ tc1.fontMax ∧ tc1.fontMax ≤ 0x79#8) ∧
    (0x61 ≤ lateFont.fontMax.toNat ∧ 0x61 ≤ 0x61 ∧ 0x61 ≤ 0x7A) ∧
    (0x60 + 1 ≤ lateFont.fontMax.toNat ∧ 0x61 ≤ 0x60 + 1 ∧ 0x60 + 1 ≤ 0x7A) ∧
    0x1E + 1 < tc1.fontMin.toNat := by
  decide

theorem witness_TickEmitsOneEvent :
    midBit.seq ≠ .idle ∧ ∃ t, tick tc1 midBit = .next t := ⟨by decide, ⟨_, rfl⟩⟩

theorem witness_WrframeIsThirtySixWrbits :
    let inputs := ((List.range 36).map fun p => HostInput.command (.wrbit 0 (wire 0#32 p))) ++ []
    0 < oneChain.count ∧ ({ oneChain with inputs := inputs } : State).seq = .idle ∧
    ({ oneChain with inputs := inputs } : State).inputs = inputs :=
  ⟨by decide, rfl, rfl⟩

theorem witness_CommandsDependOnRegistryOnly :
    oneChain.reg = midBit.reg ∧ oneChain.msg = midBit.msg ∧ oneChain ≠ midBit := by decide

theorem witness_CommandsLeaveHostMemory : ∃ t, exec (.wrbit 0 true) oneChain = .next t := ⟨_, rfl⟩

/-- `oneChain` with a frame on display, and the same at the last event of another frame. -/
def shownChain : State := { oneChain with disp := [some 0xAB1234CD#32] }
def sendingChain : State := { shownChain with seq := .frm 0 0#32 35 3 }

theorem witness_PublicCommandsKeepDisplay :
    (Instr.scroll 0x100 0).isPublic = true ∧ (∃ t, exec (.scroll 0x100 0) shownChain = .next t) ∧
    shownChain.disp[0]? = some (some 0xAB1234CD#32) ∧ (∀ k b ph, sendingChain.seq ≠ .bit k b ph) ∧
    (∃ t, tick tc1 sendingChain = .next t) ∧ sendingChain.disp[0]? = some (some 0xAB1234CD#32) :=
  ⟨rfl, ⟨_, rfl⟩, rfl, (fun _ _ _ h => nomatch h), ⟨_, rfl⟩, rfl⟩

/-- One state with distinct registered pins and one in which two modules share them (V14). -/
theorem witness_WrframeIsShown :
    (0 < oneChain.count ∧ oneChain.disp.length = oneChain.count ∧ oneChain.registeredPins.Nodup ∧
      oneChain.fault = none) ∧
    (let shared : State := { chains 2 with disp := [none, none] }
     0 < shared.count ∧ shared.disp.length = shared.count ∧ ¬ shared.registeredPins.Nodup) := by
  decide

theorem witness_WriteUnderWayIsNotShown :
    0 < oneChain.count ∧ oneChain.seq = .idle ∧ oneChain.disp.length = oneChain.count ∧
    (0 < 144 ∧ 143 < 144) ∧ 1 ≠ 0 := by
  decide

theorem witness_NominalDelays :
    0 < (oneChainWith hi).count ∧ (oneChainWith hi).msg.messageLength 0x100 = some 2 ∧ 2 ≠ 0 := by
  decide +kernel

end Sys2Proof.Tests
end

section
/-! Frame assembly and disassembly (R60, R61): the concatenation is the form the rest follows
from, through the library's laws of `++` and `extractLsb'`. -/

namespace Sys2Proof.Machine

open Sys2Proof

/-! ## The pieces of a frame -/

/-- A vector below `2 ^ k` shares no bit with one shifted left by `k`. -/
theorem shiftLeft_and_eq_zero {w k : Nat} (x : BitVec w) {y : BitVec w} (h : y.toNat < 2 ^ k) :
    x <<< k &&& y = 0#w := by
  ext i hi
  rcases Nat.lt_or_ge i k with hik | hik
  · simp [hik]
  · have hy : y.getLsbD i = false :=
      Nat.testBit_lt_two_pow (h.trans_le (Nat.pow_le_pow_right (by decide) hik))
    simp [← BitVec.getLsbD_eq_getElem, hy]

/-- R90: a vector that is widened far enough before the shift loses no bit. -/
theorem toNat_setWidth_shiftLeft {n w k : Nat} (x : BitVec n) (h : n + k ≤ w) :
    (x.setWidth w <<< k).toNat = x.toNat * 2 ^ k := by
  have hx : x.toNat * 2 ^ k < 2 ^ w := calc
    x.toNat * 2 ^ k < 2 ^ n * 2 ^ k := Nat.mul_lt_mul_of_pos_right x.isLt (Nat.two_pow_pos k)
    _ = 2 ^ (n + k) := (Nat.pow_add ..).symm
    _ ≤ 2 ^ w := Nat.pow_le_pow_right (by decide) h
  rw [BitVec.toNat_shiftLeft, BitVec.toNat_setWidth_of_le (by omega), Nat.shiftLeft_eq,
    Nat.mod_eq_of_lt hx]

/-- The OR of three adjacent pieces of a 32-bit vector is their concatenation. -/
theorem or_pieces_eq_append (hi : BitVec 8) (mid : BitVec 16) (lo : BitVec 8) :
    hi.setWidth 32 <<< 24 ||| mid.setWidth 32 <<< 8 ||| lo.setWidth 32 = hi ++ mid ++ lo := calc
  _ = (hi ++ mid ++ lo).setWidth 32 :=
    BitVec.setWidth_append_append_eq_shiftLeft_setWidth_or.symm
  _ = hi ++ mid ++ lo := BitVec.setWidth_eq _

theorem frameOf_eq_append (ml mr : Mask) :
    frameOf ml mr = mr.extractLsb' 8 8 ++ ml ++ mr.extractLsb' 0 8 := by
  rw [frameOf, BitVec.or_comm, ← BitVec.or_assoc, or_pieces_eq_append]

/-- Settles O25: each piece lies below the next one's shift, so the pieces share no bit and the OR is
the sum. -/
theorem frameOfAssemblesPieces : Obligations.FrameOfAssemblesPieces := by
  intro ml mr left low high
  have hleft : left.toNat = ml.toNat * 2 ^ 8 := toNat_setWidth_shiftLeft ml (by decide)
  have hhigh : high.toNat = (mr.extractLsb' 8 8).toNat * 2 ^ 24 :=
    toNat_setWidth_shiftLeft _ (by decide)
  have hlow : low.toNat < 2 ^ 8 :=
    (BitVec.toNat_setWidth_of_le (by decide)).trans_lt (mr.extractLsb' 0 8).isLt
  have hll : left &&& low = 0#32 := shiftLeft_and_eq_zero _ hlow
  have hhl : high &&& left = 0#32 := shiftLeft_and_eq_zero _ (by have := ml.isLt; omega)
  have hhlo : high &&& low = 0#32 := shiftLeft_and_eq_zero _ (by omega)
  have hsum : left + low + high = left ||| low ||| high := by
    have hjoin : (left ||| low) &&& high = 0#32 := by
      rw [BitVec.and_comm, BitVec.and_or_distrib_left, hhl, hhlo, BitVec.or_zero]
    rw [BitVec.add_eq_or_of_and_eq_zero left low hll, BitVec.add_eq_or_of_and_eq_zero _ high hjoin]
  exact ⟨rfl, hsum.symm, frameOf_eq_append ml mr, hll, BitVec.and_comm _ _ ▸ hhl,
    BitVec.and_comm _ _ ▸ hhlo, hleft, hhigh⟩

/-! ## Disassembly -/

theorem leftOf_frameOf (ml mr : Mask) : leftOf (frameOf ml mr) = ml := by
  rw [frameOf_eq_append, leftOf]
  exact (BitVec.extractLsb'_append_eq_of_le (Nat.le_refl 8)).trans BitVec.extractLsb'_append_eq_right

theorem rightOf_frameOf (ml mr : Mask) : rightOf (frameOf ml mr) = mr := by
  have hhigh : (frameOf ml mr).extractLsb' 24 8 = mr.extractLsb' 8 8 := by
    rw [frameOf_eq_append]
    exact (BitVec.extractLsb'_append_eq_of_le (by decide)).trans BitVec.extractLsb'_append_eq_left
  have hlow : (frameOf ml mr).extractLsb' 0 8 = mr.extractLsb' 0 8 := by
    rw [frameOf_eq_append]
    exact BitVec.extractLsb'_append_eq_right
  rw [rightOf, hhigh, hlow]
  exact BitVec.extractLsb'_append_extractLsb'

theorem frameOf_leftOf_rightOf (f : SegFrame) : frameOf (leftOf f) (rightOf f) = f := by
  have hhigh : (rightOf f).extractLsb' 8 8 = f.extractLsb' 24 8 := BitVec.extractLsb'_append_eq_left
  have hlow : (rightOf f).extractLsb' 0 8 = f.extractLsb' 0 8 := BitVec.extractLsb'_append_eq_right
  have hjoin : f.extractLsb' 24 8 ++ leftOf f = f.extractLsb' 8 24 :=
    BitVec.extractLsb'_append_extractLsb'_eq_extractLsb' rfl
  rw [frameOf_eq_append, hhigh, hlow, hjoin]
  exact BitVec.extractLsb'_append_extractLsb'

/-- `FrameOf` has the inverse that disassembles a frame. -/
theorem frameOf_bijective : Function.Bijective fun p : Mask × Mask => frameOf p.1 p.2 :=
  Function.bijective_iff_has_inverse.mpr ⟨fun f => (leftOf f, rightOf f),
    fun p => Prod.ext (leftOf_frameOf p.1 p.2) (rightOf_frameOf p.1 p.2), frameOf_leftOf_rightOf⟩

/-- Settles O26, from the two inverse laws. -/
theorem frameOfIsBijection : Obligations.FrameOfIsBijection :=
  ⟨fun _ => ⟨rfl, rfl⟩, fun ml mr => ⟨leftOf_frameOf ml mr, rightOf_frameOf ml mr⟩,
    frameOf_leftOf_rightOf, frameOf_bijective⟩

end Sys2Proof.Machine
end

section
/-! The bit write and the frame write at the pins (R75, R77): what one bit write leaves, and that a run
of them leaves what its last one alone would. -/

namespace Sys2Proof.Machine

open Sys2Proof

/-! ## The pins after a bit write -/

/-- Pin `p` after one bit write of `b` to chain `ch` (R75). The clock is driven last, so it decides
where the two pins are equal. -/
def State.pinAfterBit (s : State) (ch : Chain) (b : Bool) (p : Pin) : PinState :=
  if p = ch.clock then ⟨(s.pin p).mode, .driven .low⟩
  else if p = ch.data then ⟨(s.pin p).mode, .driven (lvl b)⟩
  else s.pin p

section PinAfterBit

variable (s : State) (ch : Chain) (b : Bool)

@[simp] theorem State.pinAfterBit_mode (p : Pin) :
    (s.pinAfterBit ch b p).mode = (s.pin p).mode := by
  unfold State.pinAfterBit
  split_ifs <;> rfl

@[simp] theorem State.pinAfterBit_clock :
    s.pinAfterBit ch b ch.clock = ⟨(s.pin ch.clock).mode, .driven .low⟩ := if_pos rfl

theorem State.pinAfterBit_data {ch : Chain} (h : ch.data ≠ ch.clock) :
    s.pinAfterBit ch b ch.data = ⟨(s.pin ch.data).mode, .driven (lvl b)⟩ := by
  rw [State.pinAfterBit, if_neg h, if_pos rfl]

theorem State.pinAfterBit_other {ch : Chain} {p : Pin} (hd : p ≠ ch.data) (hc : p ≠ ch.clock) :
    s.pinAfterBit ch b p = s.pin p := by
  rw [State.pinAfterBit, if_neg hc, if_neg hd]

/-- A 0 bit leaves the data pin low, whether or not it is also the clock pin. -/
theorem State.pinAfterBit_false_data :
    s.pinAfterBit ch false ch.data = ⟨(s.pin ch.data).mode, .driven .low⟩ := by
  by_cases h : ch.data = ch.clock
  · rw [h, State.pinAfterBit_clock]
  · exact s.pinAfterBit_data false h

end PinAfterBit

/-! ## A state whose pins are those after a bit write -/

section OfPinAfterBit

variable {s t : State} {ch : Chain} {b : Bool} (h : t.pin = s.pinAfterBit ch b)

include h

/-- Of two bit writes to one chain the later decides every pin. -/
theorem State.pinAfterBit_congr (b' : Bool) : t.pinAfterBit ch b' = s.pinAfterBit ch b' := by
  funext p
  unfold State.pinAfterBit
  split_ifs with hc hd
  · rw [h, State.pinAfterBit_mode]
  · rw [h, State.pinAfterBit_mode]
  · rw [h, State.pinAfterBit_other _ _ hd hc]

/-- No mode has moved. -/
theorem State.pinMode_of_pinAfterBit (p : Pin) : t.pinMode p = s.pinMode p := by
  rw [State.pinMode, h, State.pinAfterBit_mode, State.pinMode]

/-- The clock is low (R76). -/
theorem State.pinLevel_clock_of_pinAfterBit : t.pinLevel ch.clock = .driven .low := by
  rw [State.pinLevel, h, State.pinAfterBit_clock]

/-- Only the two pins of the chain have been touched. -/
theorem State.samePinsBut_of_pinAfterBit : SamePinsBut s t ch.data ch.clock := by
  intro p hd hc
  rw [h, State.pinAfterBit_other _ _ hd hc]

end OfPinAfterBit

/-! ## Runs of bit writes -/

section BitWrites

variable {s : State} {cfg : Config} {ch : Chain}

theorem State.pin_emit_set {q : Pin} {l : Level} (h : sparseWf PinState.untouched s.pins = true)
    (p : Pin) :
    (s.emit (.set q l)).pin p = if p = q then ⟨(s.pin p).mode, .driven l⟩ else s.pin p := by
  rw [State.pin_emit h]
  by_cases hq : p = q
  · rw [hq]
  · simp only [hq, if_false]

theorem State.pin_emit_set_mode {q : Pin} {l : Level}
    (h : sparseWf PinState.untouched s.pins = true) (p : Pin) :
    ((s.emit (.set q l)).pin p).mode = (s.pin p).mode := by
  rw [State.pin_emit_set h]
  split_ifs <;> rfl

@[simp] theorem State.pin_emit_dlyUs (n : Nat) : (s.emit (.dlyUs n)).pin = s.pin := rfl

theorem State.emitAll_pins_wf (es : List Event) (h : sparseWf PinState.untouched s.pins = true) :
    sparseWf PinState.untouched (s.emitAll es).pins = true := by
  rw [State.emitAll_pins]
  exact foldl_applyEvent_wf h

/-- What the four events of R75 do to each pin. -/
theorem State.pin_emitAll_bitEvents (h : sparseWf PinState.untouched s.pins = true) (b : Bool) :
    (s.emitAll (bitEvents cfg ch b)).pin = s.pinAfterBit ch b := by
  have hd := State.emit_pins_wf (.set ch.data (lvl b)) h
  have hc := State.emit_pins_wf (.set ch.clock .high) hd
  funext p
  simp only [bitEvents, bitEvent, State.emitAll_cons, State.emitAll_nil]
  rw [State.pin_emit_set (State.emit_pins_wf _ hc), State.pin_emit_dlyUs,
    State.pin_emit_set_mode hd, State.pin_emit_set_mode h, State.pin_emit_set hd,
    State.pin_emit_set h, State.pinAfterBit]
  split_ifs <;> rfl

/-- A run of bit writes to one chain leaves each pin as its last bit alone would. -/
theorem State.pin_emitAll_bits (h : sparseWf PinState.untouched s.pins = true) (bits : List Bool)
    (b : Bool) :
    (s.emitAll ((bits ++ [b]).flatMap (bitEvents cfg ch))).pin = s.pinAfterBit ch b := by
  induction bits generalizing s with
  | nil => simpa only [List.nil_append, List.flatMap_singleton] using State.pin_emitAll_bitEvents h b
  | cons a bits ih =>
    rw [List.cons_append, List.flatMap_cons, State.emitAll_append, ih (State.emitAll_pins_wf _ h)]
    exact State.pinAfterBit_congr (State.pin_emitAll_bitEvents h a) b

/-- The last bit of the Protocol Frame is a spacer (R58). -/
theorem frameEvents_eq_bits (f : SegFrame) :
    frameEvents cfg ch f = ((List.range 35).map (wire f) ++ [false]).flatMap (bitEvents cfg ch) := by
  have hlast : [false] = [35].map (wire f) := rfl
  rw [frameEvents, List.range_succ, hlast, ← List.map_append, List.flatMap_map]

/-- A frame write leaves the pins of its chain low, since it ends with a 0 bit (R78). -/
theorem State.pin_emitAll_frameEvents (h : sparseWf PinState.untouched s.pins = true)
    (f : SegFrame) : (s.emitAll (frameEvents cfg ch f)).pin = s.pinAfterBit ch false := by
  rw [frameEvents_eq_bits]
  exact State.pin_emitAll_bits h _ false

end BitWrites

/-! ## The two commands on a registered chain -/

section Commands

variable {s : State} {cfg : Config} {k : Nat} {ch : Chain}

theorem wrbit_of_chain (h : s.reg[k]? = some ch) (b : Bool) :
    wrbit cfg k b s = ((s.emitAll (bitEvents cfg ch b)).setDisp k none).complete none :=
  State.withChain_of_some h

theorem wrframe_of_chain (h : s.reg[k]? = some ch) (f : SegFrame) :
    wrframe cfg k f s = (s.frameOut cfg k ch f).complete none :=
  State.withChain_of_some h

theorem pin_wrbit (h : s.reg[k]? = some ch) (hwf : sparseWf PinState.untouched s.pins = true)
    (b : Bool) : (wrbit cfg k b s).pin = s.pinAfterBit ch b := by
  rw [wrbit_of_chain h]
  exact State.pin_emitAll_bitEvents hwf b

theorem pin_wrframe (h : s.reg[k]? = some ch) (hwf : sparseWf PinState.untouched s.pins = true)
    (f : SegFrame) : (wrframe cfg k f s).pin = s.pinAfterBit ch false := by
  rw [wrframe_of_chain h]
  exact State.pin_emitAll_frameEvents hwf f

theorem wrbit_sameButOutputs (h : s.reg[k]? = some ch) (b : Bool) :
    SameButOutputs s (wrbit cfg k b s) := by
  simp [wrbit_of_chain h, SameButOutputs]

theorem wrframe_sameButOutputs (h : s.reg[k]? = some ch) (f : SegFrame) :
    SameButOutputs s (wrframe cfg k f s) := by
  simp [wrframe_of_chain h, SameButOutputs]

end Commands

/-! ## Encodings -/

theorem wBit0_ofFields (op a : BitVec 8) (w : BitVec 32) :
    wBit0 (ofFields op a w) = w.getLsbD 0 := by
  rw [wBit0, ofFields, BitVec.getLsbD_append]
  rfl

theorem toNat_aField_ofFields (op : BitVec 8) {k : Nat} (w : BitVec 32) (h : k < 256) :
    (aField (ofFields op (BitVec.ofNat 8 k) w)).toNat = k := by
  rw [aField_ofFields, BitVec.toNat_ofNat, Nat.mod_eq_of_lt h]

/-! ## The two obligations -/

/-- Settles O19: the four events decide each pin of the chain, the clock's last of all. -/
theorem wrbitSendsOneBit : Obligations.WrbitSendsOneBit := by
  refine ⟨fun k b s ch hch hwf => ?registered, fun k b s hk => ?outOfRange, fun k b hk => ?encoding⟩
  case registered =>
    have hpin := pin_wrbit (cfg := Config.engine) hch hwf b
    refine ⟨_, exec_wrbit s k b, ?trace, State.pinMode_of_pinAfterBit hpin,
      State.pinLevel_clock_of_pinAfterBit hpin, fun hne => ?data,
      State.samePinsBut_of_pinAfterBit hpin, ?disp, ?res, ?seq, wrbit_sameButOutputs hch b⟩
    case trace => simp [wrbit_of_chain hch, bitEvents, bitEvent]
    case data => rw [State.pinLevel, hpin, State.pinAfterBit_data _ _ hne]
    all_goals simp [wrbit_of_chain hch]
  case outOfRange => exact congrArg Host.Outcome.next (State.withChain_of_le hk)
  case encoding =>
    refine ⟨opField_ofFields .., toNat_aField_ofFields _ _ hk, (wBit0_ofFields ..).trans ?_⟩
    cases b <;> rfl

/-- Settles O20: the frame is sent bit by bit, and its last bit, a 0, decides what the pins are left at. -/
theorem wrframeSendsProtocolFrame : Obligations.WrframeSendsProtocolFrame := by
  refine ⟨fun k f s ch hch hwf => ?registered, fun k f s hk => ?outOfRange, fun k f hk => ?encoding⟩
  case registered =>
    have hpin := pin_wrframe (cfg := Config.engine) hch hwf f
    refine ⟨_, exec_wrframe s k f, ?trace, State.pinMode_of_pinAfterBit hpin,
      State.pinLevel_clock_of_pinAfterBit hpin, ?data, State.samePinsBut_of_pinAfterBit hpin,
      ?disp, ?res, ?seq, wrframe_sameButOutputs hch f⟩
    case trace =>
      rw [wrframe_of_chain hch, State.complete_trace, State.frameOut_trace, frameEvents]
      rfl
    case data => rw [State.pinLevel, hpin, State.pinAfterBit_false_data]
    all_goals simp [wrframe_of_chain hch]
  case outOfRange => exact congrArg Host.Outcome.next (State.withChain_of_le hk)
  case encoding => exact ⟨opField_ofFields .., toNat_aField_ofFields _ _ hk, wField_ofFields ..⟩

end Sys2Proof.Machine
end

section
/-! The Character Compositor (R85 to R91): `CHMASK` and `COMPOSE` complete with a value of their operands,
and `WRCHARS` is the frame write of the composed frame. -/

namespace Sys2Proof.Machine

open Sys2Proof

/-! ## The two characters of a command word -/

section Chars

variable (op a : BitVec 8) (l r : CharCode)

/-- The value of a command word whose low half is two characters. -/
theorem toNat_ofFields_chars :
    (ofFields op a ((l ++ r).setWidth 32)).toNat =
      op.toNat * 2 ^ 40 + a.toNat * 2 ^ 32 + (l.toNat * 256 + r.toNat) := by
  rw [toNat_ofFields, BitVec.toNat_setWidth_of_le (by decide), toNat_chars]

theorem wByte1_ofFields_chars : wByte1 (ofFields op a ((l ++ r).setWidth 32)) = l := by
  have := l.isLt
  have := r.isLt
  apply BitVec.eq_of_toNat_eq
  rw [wByte1, toNat_slice, toNat_ofFields_chars]
  omega

theorem wByte0_ofFields_chars : wByte0 (ofFields op a ((l ++ r).setWidth 32)) = r := by
  have := r.isLt
  apply BitVec.eq_of_toNat_eq
  rw [wByte0, toNat_slice, toNat_ofFields_chars]
  omega

end Chars

/-! ## `WRCHARS` -/

/-- R91: the characters are composed, and the rest is the frame write. -/
theorem wrchars_eq_wrframe (cfg : Config) (k : Nat) (l r : CharCode) (s : State) :
    wrchars cfg k l r s = wrframe cfg k (composeFrame cfg l r) s := rfl

theorem leftOf_composeFrame (cfg : Config) (l r : CharCode) :
    leftOf (composeFrame cfg l r) = charMask cfg l := leftOf_frameOf ..

theorem rightOf_composeFrame (cfg : Config) (l r : CharCode) :
    rightOf (composeFrame cfg l r) = charMask cfg r := rightOf_frameOf ..

/-- Settles O32: what holds of the frame write holds of the frame that is composed, whose two parts are the
masks. -/
theorem wrcharsSendsComposedFrame : Obligations.WrcharsSendsComposedFrame := by
  refine ⟨fun k l r s => congrArg Host.Outcome.next (wrchars_eq_wrframe _ k l r s),
    fun k l r s ch hch hwf hdisp => ?registered, fun k l r s hk => ?outOfRange,
    fun k l r hk => ?encoding⟩
  case registered =>
    have hk : k < s.disp.length := hdisp ▸ (List.getElem?_eq_some_iff.mp hch).1
    have hpin := pin_wrframe (cfg := Config.engine) hch hwf (composeFrame Config.engine l r)
    refine ⟨_, frameEvents Config.engine ch (composeFrame Config.engine l r), _, exec_wrchars s k l r,
      ?trace, length_frameEvents .., ?disp, ?shown, leftOf_composeFrame .., rightOf_composeFrame ..,
      State.pinMode_of_pinAfterBit hpin, State.samePinsBut_of_pinAfterBit hpin, ?res, ?seq,
      wrframe_sameButOutputs hch _⟩
    all_goals simp [wrchars_eq_wrframe, wrframe_of_chain hch, hk]
  case outOfRange => exact congrArg Host.Outcome.next (State.withChain_of_le hk)
  case encoding =>
    exact ⟨opField_ofFields .., toNat_aField_ofFields _ _ hk, wByte1_ofFields_chars ..,
      wByte0_ofFields_chars ..⟩

/-! ## `CHMASK` and `COMPOSE` -/

/-- A command that completes on an idle engine without an event writes only `RES`. -/
theorem State.complete_of_idle {s : State} (h : s.seq = .idle) (r : Option (BitVec 32)) :
    s.complete r = { s with res := r } := by
  rw [State.complete, ← h]

/-- Settles O27: the value that each command completes with is named from its operands, before any state. -/
theorem compositorCommandsArePure : Obligations.CompositorCommandsArePure := by
  refine ⟨fun c => ⟨(charMask Config.engine c).setWidth 32, fun s h => ?chmask⟩,
    fun l r => ⟨composeFrame Config.engine l r, fun s h => ?compose⟩⟩
  case chmask => exact congrArg Host.Outcome.next (State.complete_of_idle h _)
  case compose => exact congrArg Host.Outcome.next (State.complete_of_idle h _)

/-- Settles O28: the font is reached exactly when the range test on the folded code lets it through. -/
theorem chmaskReturnsMask : Obligations.ChmaskReturnsMask := by
  refine ⟨fun c s => exec_chmask s c, fun cfg c u hu => ?mask,
    fun c => ⟨opField_ofFields .., aField_ofFields ..⟩⟩
  case mask =>
    obtain rfl : u = foldCase c := hu
    exact ⟨charMask_blank, fun hmin hmax =>
      charMask_font (not_or.mpr ⟨BitVec.not_lt.mpr hmin, BitVec.not_lt.mpr hmax⟩)⟩

/-- Settles O30: the three pieces of R88 are those `FrameOf` joins. -/
theorem composeReturnsFrame : Obligations.ComposeReturnsFrame :=
  ⟨fun l r s => exec_compose s l r, fun _ _ _ => ⟨rfl, rfl⟩,
    fun _ _ => ⟨opField_ofFields .., wByte1_ofFields_chars .., wByte0_ofFields_chars ..⟩⟩

end Sys2Proof.Machine
end

section
/-! The command sequencers: a `SCROLL` of an empty message (R107, R123). -/

namespace Sys2Proof.Machine

open Sys2Proof

/-- R107: with a null as its first byte the message has no frame, so the command completes at once. -/
theorem scroll_of_null {s : State} {m : Nat} (h : s.msg.read m = 0#8) (cfg : Config) (t : Nat) :
    scroll cfg m t s = s.complete none := if_pos h

/-- Settles O35: the command completes before its first frame, and an idle engine that completes without
an event has only `RES` written. -/
theorem emptyScrollDoesNothing : Obligations.EmptyScrollDoesNothing := by
  intro m t s hnull hidle
  rw [exec_scroll, scroll_of_null hnull, State.complete_of_idle hidle]

end Sys2Proof.Machine
end

section
/-! Registry full (R121). -/

namespace Sys2Proof.Machine

open Sys2Proof

/-- R71: with no slot left, `REGCHAIN` completes with 0 at once, before its first event. -/
theorem regchain_of_full {cfg : Config} {s : State} (h : s.count = cfg.maxChains) (d c : Pin) :
    regchain cfg d c s = s.complete (resBool false) := if_pos h

/-- Settles O16: on a full registry the command only completes, and an idle engine that completes without
an event has only `RES` written, here with 0. -/
theorem fullRegistryIsSilent : Obligations.FullRegistryIsSilent := by
  intro d c s hfull hidle
  have hres : resBool false = some 0#32 := rfl
  rw [exec_regchain, regchain_of_full hfull, State.complete_of_idle hidle, hres]

end Sys2Proof.Machine
end

section
/-! The command word (R52, R53, R62, R63, R67): the decoder opcode by opcode, and the encoder as its inverse. -/

namespace Sys2Proof.Machine

open Sys2Proof

/-! ## Slices -/

/-- A slice that lies in `W` does not see `OP` and `A`. -/
theorem extractLsb'_ofFields (op a : BitVec 8) (v : BitVec 32) {lo len : Nat}
    (h : lo + len ≤ 32) : (ofFields op a v).extractLsb' lo len = v.extractLsb' lo len :=
  BitVec.extractLsb'_append_eq_of_add_le h

theorem ofBool_wBit0 (w : CmdWord) : BitVec.ofBool (wBit0 w) = w.extractLsb' 0 1 := by
  ext i hi
  obtain rfl : i = 0 := by omega
  simp [wBit0]

/-- A word is assembled from its three fields. -/
theorem ofFields_fields (w : CmdWord) : ofFields (opField w) (aField w) (wField w) = w := by
  have hop : opField w ++ aField w = w.extractLsb' 32 16 :=
    BitVec.extractLsb'_append_extractLsb'_eq_extractLsb' rfl
  rw [ofFields, hop]
  exact BitVec.extractLsb'_append_extractLsb'

/-- `W` is its two halves. -/
theorem wHigh_append_wLow (w : CmdWord) : wHigh w ++ wLow w = wField w :=
  BitVec.extractLsb'_append_extractLsb'_eq_extractLsb' rfl

/-- The low half of `W` is its two bytes. -/
theorem wByte1_append_wByte0 (w : CmdWord) : wByte1 w ++ wByte0 w = wLow w :=
  BitVec.extractLsb'_append_extractLsb'_eq_extractLsb' rfl

/-- The reserved bits above an operand that is widened to `W` are zero. -/
theorem slice_ofFields_setWidth_high (op a : BitVec 8) {n m : Nat} (x : BitVec m) (h : m + n ≤ 32) :
    (ofFields op a (x.setWidth 32)).extractLsb' m n = 0#n := by
  rw [extractLsb'_ofFields _ _ _ h]
  ext i hi
  simp [BitVec.getLsbD_setWidth]

/-- An operand that is widened to `W` is read back from its field. -/
theorem slice_ofFields_setWidth_low (op a : BitVec 8) {m : Nat} (x : BitVec m) (h : m ≤ 32) :
    (ofFields op a (x.setWidth 32)).extractLsb' 0 m = x := by
  rw [extractLsb'_ofFields _ _ _ (by omega), BitVec.extractLsb'_setWidth_of_le (by omega),
    BitVec.extractLsb'_eq_self]

/-- With the bits above it zero, an operand's field widened is `W`. -/
theorem setWidth_slice_eq_wField {w : CmdWord} {n m : Nat} (h : n + m = 32)
    (hz : w.extractLsb' m n = 0#n) : (w.extractLsb' 0 m).setWidth 32 = wField w := by
  have happend : w.extractLsb' m n ++ w.extractLsb' 0 m = w.extractLsb' 0 (n + m) :=
    BitVec.extractLsb'_append_extractLsb'_eq_extractLsb' (Nat.zero_add m).symm
  have hle : m ≤ 32 := by omega
  apply BitVec.eq_of_toNat_eq
  calc ((w.extractLsb' 0 m).setWidth 32).toNat
      = (0#n ++ w.extractLsb' 0 m).toNat := by
        rw [BitVec.toNat_setWidth_of_le hle, BitVec.toNat_append]; simp
    _ = (wField w).toNat := by rw [← hz, happend, h, wField]

/-! ## The decoder, opcode by opcode -/

theorem checkReserved_eq_ok {w : CmdWord} {b : Bool} {i j : Instr} :
    checkReserved w b i = .ok j ↔ b = true ∧ i = j := by
  cases b <;> simp [checkReserved]

section Decode

variable {w : CmdWord}

theorem decode_regchain (h : opField w = 0x01#8) :
    decode w = checkReserved w (w.extractLsb' 8 24 == 0#24)
      (.regchain (pinOfByte (aField w)) (pinOfByte (wByte0 w))) := by
  simp [decode, h]

theorem decode_wrbit (h : opField w = 0x02#8) :
    decode w = checkReserved w (w.extractLsb' 1 31 == 0#31) (.wrbit (aField w).toNat (wBit0 w)) := by
  simp [decode, h]

theorem decode_wrframe (h : opField w = 0x03#8) :
    decode w = checkReserved w true (.wrframe (aField w).toNat (wField w)) := by
  simp [decode, h]

theorem decode_chmask (h : opField w = 0x04#8) :
    decode w = checkReserved w (wField w == 0#32) (.chmask (aField w)) := by
  simp [decode, h]

theorem decode_compose (h : opField w = 0x05#8) :
    decode w = checkReserved w (aField w == 0#8 && wHigh w == 0#16)
      (.compose (wByte1 w) (wByte0 w)) := by
  simp [decode, h]

theorem decode_wrchars (h : opField w = 0x06#8) :
    decode w = checkReserved w (wHigh w == 0#16)
      (.wrchars (aField w).toNat (wByte1 w) (wByte0 w)) := by
  simp [decode, h]

theorem decode_scroll (h : opField w = 0x07#8) :
    decode w = checkReserved w (aField w == 0#8) (.scroll (wHigh w).toNat (wLow w).toNat) := by
  simp [decode, h]

theorem decode_dtest (h : opField w = 0x08#8) :
    decode w = checkReserved w (w.extractLsb' 8 24 == 0#24)
      (.dtest (aField w).toNat (wByte0 w)) := by
  simp [decode, h]

theorem decode_of_reservedOpcode (h : opField w = 0x00#8 ∨ 0x09#8 ≤ opField w) :
    decode w = .error (.reservedOpcode (opField w)) := by
  have hne : ∀ op : BitVec 8, op = 0x00#8 ∨ 0x09#8 ≤ op → op ≠ 0x01#8 ∧ op ≠ 0x02#8 ∧ op ≠ 0x03#8 ∧
      op ≠ 0x04#8 ∧ op ≠ 0x05#8 ∧ op ≠ 0x06#8 ∧ op ≠ 0x07#8 ∧ op ≠ 0x08#8 := by decide
  obtain ⟨h1, h2, h3, h4, h5, h6, h7, h8⟩ := hne _ h
  simp only [decode, h1, h2, h3, h4, h5, h6, h7, h8, if_false]

end Decode

/-- Every `OP` byte is one of the eight opcodes or reserved (R53, R62). -/
theorem opcode_cases (op : BitVec 8) :
    op = 0x01#8 ∨ op = 0x02#8 ∨ op = 0x03#8 ∨ op = 0x04#8 ∨ op = 0x05#8 ∨ op = 0x06#8 ∨ op = 0x07#8 ∨
      op = 0x08#8 ∨ op = 0x00#8 ∨ 0x09#8 ≤ op := by
  revert op
  decide

/-! ## The decoder on an encoded command -/

theorem decode_encode {i : Instr} (h : i.wf = true) : decode (encode i) = .ok i := by
  cases i with
  | regchain d c =>
    simp only [Instr.wf, fitsField, Bool.and_eq_true, decide_eq_true_eq] at h
    obtain ⟨hd, hc⟩ := h
    rw [encode, decode_regchain (opField_ofFields ..), checkReserved_eq_ok, aField_ofFields, wByte0,
      slice_ofFields_setWidth_high _ _ _ (by decide), slice_ofFields_setWidth_low _ _ _ (by decide),
      pinOfByte_ofNat hd, pinOfByte_ofNat hc]
    exact ⟨rfl, rfl⟩
  | wrbit k b =>
    have hbit : wBit0 (ofFields 0x02#8 (BitVec.ofNat 8 k) ((BitVec.ofBool b).setWidth 32)) = b := by
      rw [wBit0_ofFields]; cases b <;> rfl
    rw [encode, decode_wrbit (opField_ofFields ..), checkReserved_eq_ok,
      toNat_aField_ofFields _ _ (of_decide_eq_true h), slice_ofFields_setWidth_high _ _ _ (by decide),
      hbit]
    exact ⟨rfl, rfl⟩
  | wrframe k f =>
    rw [encode, decode_wrframe (opField_ofFields ..), checkReserved_eq_ok,
      toNat_aField_ofFields _ _ (of_decide_eq_true h), wField_ofFields]
    exact ⟨rfl, rfl⟩
  | chmask c =>
    rw [encode, decode_chmask (opField_ofFields ..), checkReserved_eq_ok, aField_ofFields,
      wField_ofFields]
    exact ⟨rfl, rfl⟩
  | compose l r =>
    rw [encode, decode_compose (opField_ofFields ..), checkReserved_eq_ok, aField_ofFields, wHigh,
      slice_ofFields_setWidth_high _ _ _ (by decide), wByte1_ofFields_chars, wByte0_ofFields_chars]
    exact ⟨rfl, rfl⟩
  | wrchars k l r =>
    rw [encode, decode_wrchars (opField_ofFields ..), checkReserved_eq_ok,
      toNat_aField_ofFields _ _ (of_decide_eq_true h), wHigh,
      slice_ofFields_setWidth_high _ _ _ (by decide), wByte1_ofFields_chars, wByte0_ofFields_chars]
    exact ⟨rfl, rfl⟩
  | scroll m t =>
    simp only [Instr.wf, fitsField, Bool.and_eq_true, decide_eq_true_eq] at h
    obtain ⟨hm, ht⟩ := h
    rw [encode, decode_scroll (opField_ofFields ..), checkReserved_eq_ok, aField_ofFields, wHigh, wLow,
      extractLsb'_ofFields _ _ _ (by decide), extractLsb'_ofFields _ _ _ (by decide),
      BitVec.extractLsb'_append_eq_left, BitVec.extractLsb'_append_eq_right, BitVec.toNat_ofNat,
      BitVec.toNat_ofNat, Nat.mod_eq_of_lt hm, Nat.mod_eq_of_lt ht]
    exact ⟨rfl, rfl⟩
  | dtest k c =>
    rw [encode, decode_dtest (opField_ofFields ..), checkReserved_eq_ok,
      toNat_aField_ofFields _ _ (of_decide_eq_true h), wByte0,
      slice_ofFields_setWidth_high _ _ _ (by decide), slice_ofFields_setWidth_low _ _ _ (by decide)]
    exact ⟨rfl, rfl⟩

/-! ## The encoder on a decoded word -/

/-- A word with the three fields of another is that word. -/
theorem ofFields_eq {w : CmdWord} {op a : BitVec 8} {v : BitVec 32} (hop : opField w = op)
    (ha : aField w = a) (hv : wField w = v) : ofFields op a v = w := by
  rw [← hop, ← ha, ← hv, ofFields_fields]

@[simp] theorem fitsField_toNat {n : Nat} (x : BitVec n) : fitsField n x.toNat = true :=
  decide_eq_true x.isLt

theorem encode_of_decode {w : CmdWord} {i : Instr} (h : decode w = .ok i) :
    i.wf = true ∧ encode i = w := by
  have ha : aField w = BitVec.ofNat 8 (aField w).toNat := by simp
  have hw : w.extractLsb' 8 24 = 0#24 → wField w = (wByte0 w).setWidth 32 := fun hz =>
    (setWidth_slice_eq_wField rfl hz).symm
  have hchars : wHigh w = 0#16 → wField w = (wByte1 w ++ wByte0 w).setWidth 32 := fun hz => by
    rw [wByte1_append_wByte0]; exact (setWidth_slice_eq_wField rfl hz).symm
  rcases opcode_cases (opField w) with hop | hop | hop | hop | hop | hop | hop | hop | hop
  · rw [decode_regchain hop, checkReserved_eq_ok, beq_iff_eq] at h
    obtain ⟨hz, rfl⟩ := h
    exact ⟨by simp [Instr.wf], ofFields_eq hop ha
      (by rw [pinOfByte_number, BitVec.ofNat_toNat, BitVec.setWidth_eq]; exact hw hz)⟩
  · rw [decode_wrbit hop, checkReserved_eq_ok, beq_iff_eq] at h
    obtain ⟨hz, rfl⟩ := h
    exact ⟨fitsField_toNat _, ofFields_eq hop ha
      (by rw [ofBool_wBit0]; exact (setWidth_slice_eq_wField rfl hz).symm)⟩
  · rw [decode_wrframe hop, checkReserved_eq_ok] at h
    obtain ⟨-, rfl⟩ := h
    exact ⟨fitsField_toNat _, ofFields_eq hop ha rfl⟩
  · rw [decode_chmask hop, checkReserved_eq_ok, beq_iff_eq] at h
    obtain ⟨hz, rfl⟩ := h
    exact ⟨rfl, ofFields_eq hop rfl hz⟩
  · rw [decode_compose hop, checkReserved_eq_ok, Bool.and_eq_true, beq_iff_eq, beq_iff_eq] at h
    obtain ⟨⟨ha0, hz⟩, rfl⟩ := h
    exact ⟨rfl, ofFields_eq hop ha0 (hchars hz)⟩
  · rw [decode_wrchars hop, checkReserved_eq_ok, beq_iff_eq] at h
    obtain ⟨hz, rfl⟩ := h
    exact ⟨fitsField_toNat _, ofFields_eq hop ha (hchars hz)⟩
  · rw [decode_scroll hop, checkReserved_eq_ok, beq_iff_eq] at h
    obtain ⟨ha0, rfl⟩ := h
    exact ⟨by simp [Instr.wf], ofFields_eq hop ha0 (by simp [← wHigh_append_wLow])⟩
  · rw [decode_dtest hop, checkReserved_eq_ok, beq_iff_eq] at h
    obtain ⟨hz, rfl⟩ := h
    exact ⟨fitsField_toNat _, ofFields_eq hop ha (hw hz)⟩
  · rw [decode_of_reservedOpcode hop] at h
    cases h

/-! ## The opcode table -/

/-- A word in a row has the row's bits in every slice that the mask covers. -/
theorem slice_of_matchesWord {r : OpcodeRow} {w : CmdWord} {lo len : Nat} (h : r.matchesWord w = true)
    (hmask : r.mask.extractLsb' lo len = BitVec.allOnes len) :
    w.extractLsb' lo len = r.pattern.extractLsb' lo len := by
  rw [OpcodeRow.matchesWord, decide_eq_true_eq] at h
  rw [← h, BitVec.extractLsb'_and, hmask, BitVec.and_allOnes]

/-- A word that belongs to two rows shows that they overlap. -/
theorem overlaps_of_matchesWord {r r' : OpcodeRow} {w : CmdWord} (h : r.matchesWord w = true)
    (h' : r'.matchesWord w = true) : r.overlaps r' = true := by
  simp only [OpcodeRow.matchesWord, OpcodeRow.overlaps, decide_eq_true_eq] at *
  rw [← h, ← h', BitVec.and_assoc, BitVec.and_assoc, BitVec.and_comm r.mask]

theorem opcodeTable_pairwise_not_overlaps :
    opcodeTable.Pairwise fun r r' => ¬ r.overlaps r' = true := by decide

/-- The encoder writes every command into the row with its mnemonic. -/
theorem tableRow (i : Instr) : Laws.TableRow.Statement i := by
  cases i with
  | regchain d c => exact Laws.TableRow.regchain d c
  | wrbit k b => exact Laws.TableRow.wrbit k b
  | wrframe k f => exact Laws.TableRow.wrframe k f
  | chmask c => exact Laws.TableRow.chmask c
  | compose l r => exact Laws.TableRow.compose l r
  | wrchars k l r => exact Laws.TableRow.wrchars k l r
  | scroll m t => exact Laws.TableRow.scroll m t
  | dtest k c => exact Laws.TableRow.dtest k c

/-- A word in a row decodes, to a command with the row's mnemonic. -/
theorem decode_of_matchesWord {r : OpcodeRow} {w : CmdWord} (hr : r ∈ opcodeTable)
    (h : r.matchesWord w = true) : ∃ i, decode w = .ok i ∧ i.mnemonic = r.mnemonic := by
  have hop : r.mask.extractLsb' 40 8 = BitVec.allOnes 8 → opField w = r.pattern.extractLsb' 40 8 :=
    slice_of_matchesWord h
  have hok : ∀ {i : Instr} {b : Bool}, decode w = checkReserved w b i → b = true →
      i.mnemonic = r.mnemonic → ∃ i, decode w = .ok i ∧ i.mnemonic = r.mnemonic :=
    fun hdec hb hmn => ⟨_, hdec.trans (checkReserved_eq_ok.2 ⟨hb, rfl⟩), hmn⟩
  simp only [opcodeTable, List.mem_cons, List.not_mem_nil, or_false] at hr
  rcases hr with rfl | rfl | rfl | rfl | rfl | rfl | rfl | rfl
  · exact hok (decode_regchain (hop rfl)) (beq_iff_eq.2 (slice_of_matchesWord h rfl)) rfl
  · exact hok (decode_wrbit (hop rfl)) (beq_iff_eq.2 (slice_of_matchesWord h rfl)) rfl
  · exact hok (decode_wrframe (hop rfl)) rfl rfl
  · exact hok (decode_chmask (hop rfl)) (beq_iff_eq.2 (slice_of_matchesWord h rfl)) rfl
  · exact hok (decode_compose (hop rfl)) (Bool.and_eq_true_iff.2
      ⟨beq_iff_eq.2 (slice_of_matchesWord h rfl), beq_iff_eq.2 (slice_of_matchesWord h rfl)⟩) rfl
  · exact hok (decode_wrchars (hop rfl)) (beq_iff_eq.2 (slice_of_matchesWord h rfl)) rfl
  · exact hok (decode_scroll (hop rfl)) (beq_iff_eq.2 (slice_of_matchesWord h rfl)) rfl
  · exact hok (decode_dtest (hop rfl)) (beq_iff_eq.2 (slice_of_matchesWord h rfl)) rfl

/-! ## The laws of the encoding -/

/-- Settles O1: the decoder is a function, two rows never overlap, and the fields of an encoded command are
those the decoder reads. -/
theorem decoderIsTotalAndInvertsEncoder : Obligations.DecoderIsTotalAndInvertsEncoder := by
  refine ⟨fun w => ?total, ?disjoint, fun i hi => decode_encode hi⟩
  case total =>
    cases h : decode w with
    | ok i => exact .inl ⟨i, rfl, fun j hj => (Except.ok.inj hj).symm⟩
    | error r => exact .inr ⟨r, rfl⟩
  case disjoint =>
    exact opcodeTable_pairwise_not_overlaps.imp fun hno w hw =>
      hno (overlaps_of_matchesWord hw.1 hw.2)

/-- Settles O2: each opcode's reserved bits are zero, so the operands' fields are the whole word. -/
theorem encoderInvertsDecoder : Obligations.EncoderInvertsDecoder :=
  fun _ _ h => encode_of_decode h

/-- Settles O3: a row's mask covers the opcode and the reserved fields, and a word that decodes is an encoded
command, which is in its row. -/
theorem decoderAgreesWithOpcodeTable : Obligations.DecoderAgreesWithOpcodeTable := by
  refine fun w => ⟨fun r hr h => decode_of_matchesWord hr h, fun i h => ?_⟩
  obtain ⟨r, hr, hmn, hmatch⟩ := tableRow i
  rw [(encode_of_decode h).2] at hmatch
  exact ⟨r, hr, hmatch, hmn⟩

/-- Settles O6: each word is evaluated. -/
theorem sampleWordsDecode : Obligations.SampleWordsDecode := by
  unfold Obligations.SampleWordsDecode
  decide

end Sys2Proof.Machine
end

section
/-! The step of an idle engine and what it takes from the host (R8, R23, R62, R125, R140). -/

namespace Sys2Proof.Machine

open Sys2Proof

/-! ## The step of an idle engine -/

section Idle

variable {s : State} {rest : List HostInput}

theorem step_of_idle (h : s.seq = .idle) : step s = accept exec s := by
  rw [step, h]

theorem step_of_busy (h : s.seq ≠ .idle) : step s = tick Config.engine s := by
  unfold step
  split
  · exact absurd ‹_› h
  · rfl

variable (hidle : s.seq = .idle)

include hidle

theorem step_nil (h : s.inputs = []) : step s = .next s := by
  rw [step_of_idle hidle, accept, h]

theorem step_command {i : Instr} (h : s.inputs = .command i :: rest) :
    step s = exec i { s with inputs := rest } := by
  rw [step_of_idle hidle, accept, h]

theorem step_word_of_ok {w : CmdWord} {i : Instr} (h : s.inputs = .word w :: rest)
    (hdec : decode w = .ok i) : step s = exec i { s with inputs := rest } := by
  rw [step_of_idle hidle, accept, h]
  simp only [issueWord, hdec]

theorem step_word_of_error {w : CmdWord} {e : Reject} (h : s.inputs = .word w :: rest)
    (hdec : decode w = .error e) :
    step s = .next ({ s with inputs := rest }.raise (.invalidCommand w)) := by
  rw [step_of_idle hidle, accept, h]
  simp only [issueWord, hdec]

theorem step_store {a : Nat} {b : BitVec 8} (h : s.inputs = .store a b :: rest) :
    step s = .next { s with msg := s.msg.write a b, inputs := rest } := by
  rw [step_of_idle hidle, accept, h]

theorem step_newInstance (h : s.inputs = .newInstance :: rest) :
    step s = .next { State.reset with msg := s.msg, inputs := rest } := by
  rw [step_of_idle hidle, accept, h]

/-- An idle engine with no fault mark that takes an `INVALID` word only marks it. -/
theorem step_word_of_error_clean {w : CmdWord} {e : Reject} (h : s.inputs = .word w :: rest)
    (hclean : s.fault = none) (hdec : decode w = .error e) :
    step s = .next { s with inputs := rest, fault := some (.invalidCommand w), res := none } := by
  rw [step_word_of_error hidle h hdec, State.raise, hclean, ← hidle]
  rfl

end Idle

/-- A word that `decodeTableWord` reads decodes, as a command word, to the same command. -/
theorem decode_of_decodeTableWord {nbits w : Nat} {i : Instr} (h : decodeTableWord nbits w = some i) :
    decode (tableWord nbits w) = .ok i := by
  unfold decodeTableWord at h
  split at h
  · rename_i hdec
    rw [hdec, Option.some.inj h]
  · cases h

/-- Settles O7, from the two ways a command is issued; `withFetchWord` issues one as a word. -/
theorem stepRunsDecodedCommand : Obligations.StepRunsDecodedCommand := by
  refine fun s rest i hidle => ⟨fun w h hdec => step_word_of_ok hidle h hdec, step_command hidle,
    fun nbits w h => ?_⟩
  have hstep := step_word_of_ok (s := s.withFetchWord nbits w) rfl rfl (decode_of_decodeTableWord h)
  rw [hstep, State.withFetchWord, ← hidle]

/-- Settles O8: one case of the host's inputs each. -/
theorem hostInputsOnIdleEngine : Obligations.HostInputsOnIdleEngine :=
  fun _ _ hidle => ⟨step_nil hidle, fun _ _ h => step_store hidle h, step_newInstance hidle⟩

/-- Settles O9: host memory is a sparse map in canonical form, read back at the key that was set. -/
theorem hostStoreReadsBack : Obligations.HostStoreReadsBack := by
  intro s rest a b hwf hidle h
  refine ⟨_, step_store hidle h, Memory.write_wf hwf, ?same, fun a' hne => ?other, rfl⟩
  case same => rw [Memory.read_write hwf, if_pos rfl]
  case other => rw [Memory.read_write hwf, if_neg hne]

/-! ## `INVALID` words -/

/-- Settles O4: no opcode's row is taken, and a rejected word is only marked. -/
theorem reservedOpcodeIsInvalid : Obligations.ReservedOpcodeIsInvalid := by
  intro w rest s h
  have hdec := decode_of_reservedOpcode h
  exact ⟨hdec, fun hidle hin hclean => step_word_of_error_clean hidle hin hclean hdec⟩

/-- A failed test of the reserved fields rejects the word. -/
theorem checkReserved_of_false (w : CmdWord) {b : Bool} (i : Instr) (h : b = false) :
    checkReserved w b i = .error (.reservedField (opField w)) := by
  rw [checkReserved, h, if_neg Bool.false_ne_true]

/-- Settles O5: the test of the opcode's reserved fields fails, and a rejected word is only marked. -/
theorem reservedFieldIsInvalid : Obligations.ReservedFieldIsInvalid := by
  intro w rest s h
  have hdec : decode w = .error (.reservedField (opField w)) := by
    rcases h with ⟨hop, hz⟩ | ⟨hop, hz⟩ | ⟨hop, hz⟩ | ⟨hop, hz⟩ | ⟨hop, hz⟩ | ⟨hop, hz⟩ | ⟨hop, hz⟩
    · rw [decode_regchain hop, checkReserved_of_false _ _ (beq_false_of_ne hz)]
    · rw [decode_wrbit hop, checkReserved_of_false _ _ (beq_false_of_ne hz)]
    · rw [decode_chmask hop, checkReserved_of_false _ _ (beq_false_of_ne hz)]
    · rw [decode_compose hop, checkReserved_of_false _ _ (by simpa [imp_iff_not_or] using hz)]
    · rw [decode_wrchars hop, checkReserved_of_false _ _ (beq_false_of_ne hz)]
    · rw [decode_scroll hop, checkReserved_of_false _ _ (beq_false_of_ne hz)]
    · rw [decode_dtest hop, checkReserved_of_false _ _ (beq_false_of_ne hz)]
  exact ⟨hdec, fun hidle hin hclean => step_word_of_error_clean hidle hin hclean hdec⟩

/-! ## Reset and configuration -/

/-- Settles O10: every field of the reset state is written out. -/
theorem resetState : Obligations.ResetState :=
  ⟨rfl, fun _ => rfl, rfl, rfl, rfl, rfl, fun _ => rfl, fun _ => ⟨rfl, rfl⟩⟩

/-- Settles O53: the two delays are the ones `Config.engine` names. -/
theorem documentedDelays : Obligations.DocumentedDelays := ⟨rfl, rfl⟩

end Sys2Proof.Machine
end

section
/-! The values the commands compute (R58, R87, R89) and the pin state that a list of events leaves (R14). -/

namespace Sys2Proof.Machine

open Sys2Proof

/-! ## The wire function and the Protocol Frame -/

theorem getLsbD_protocolFrame (f : SegFrame) {p : Nat} (hp : p < 36) :
    (protocolFrame f).getLsbD p = wire f p := by
  rcases p with _ | _ | i
  · simp [protocolFrame]
  · simp [protocolFrame]
  · have hbit : (protocolFrame f).getLsbD (i + 2) = f.getLsbD i := by
      simp [protocolFrame, show i + 2 < 36 by omega]
    rcases Nat.lt_or_ge i 32 with hi | hi
    · rw [hbit, wire_payload f hi]
    · rw [hbit, wire_trailing f (by omega), BitVec.getLsbD_of_ge f i hi]

/-- The payload bits determine the frame. -/
theorem eq_of_wire_eq {f f' : SegFrame} (h : ∀ p, p < 36 → wire f p = wire f' p) : f = f' := by
  refine BitVec.eq_of_getLsbD_eq fun i hi => ?_
  rw [← wire_payload f hi, ← wire_payload f' hi]
  exact h (i + 2) (by omega)

/-- The 36 wire positions: the start bit, a spacer, the payload, two spacers. -/
theorem range_wire : List.range 36 = 0 :: 1 :: ((List.range 32).map (· + 2) ++ [34, 35]) := by decide

theorem countP_wire (f : SegFrame) :
    (List.range 36).countP (wire f) = 1 + (List.range 32).countP f.getLsbD := by
  have hpayload : ((List.range 32).map (· + 2)).countP (wire f) = (List.range 32).countP f.getLsbD := by
    rw [List.countP_map]
    refine List.countP_congr fun i hi => ?_
    rw [Function.comp, wire_payload f (List.mem_range.1 hi)]
  rw [range_wire, List.countP_cons, List.countP_cons, List.countP_append, hpayload]
  simp [wire_trailing, Nat.add_comm]

/-- Settles O24: the frame's bits stand two places up in the Protocol Frame, between the fixed ones. -/
theorem wireFunctionIsProtocolFrame : Obligations.WireFunctionIsProtocolFrame := by
  refine ⟨fun f => ⟨rfl, rfl, fun p hlo hhi => ?payload, rfl, rfl⟩, fun f => ⟨rfl, fun p => ?number⟩,
    fun f f' => ⟨eq_of_wire_eq, fun h p _ => h ▸ rfl⟩, countP_wire⟩
  case payload =>
    obtain ⟨i, rfl⟩ := Nat.exists_eq_add_of_le' hlo
    rw [wire_payload f (by omega), Nat.add_sub_cancel]
  case number => exact getLsbD_protocolFrame f

/-! ## Character masks -/

/-- Folding twice is folding once: a folded code is no lower-case letter. -/
theorem foldCase_not_lower (c : CharCode) : ¬ (0x61#8 ≤ foldCase c ∧ foldCase c ≤ 0x7A#8) := by
  revert c
  decide

theorem foldCase_sub {c : CharCode} (h : 0x61#8 ≤ c ∧ c ≤ 0x7A#8) : foldCase (c - 0x20#8) = foldCase c := by
  revert c
  decide

/-- The mask depends on the code only through its fold. -/
theorem charMask_congr {cfg : Config} {c c' : CharCode} (h : foldCase c = foldCase c') :
    charMask cfg c = charMask cfg c' := by
  rw [charMask, charMask, h]

theorem charMask_sub (cfg : Config) {c : CharCode} (h : 0x61#8 ≤ c ∧ c ≤ 0x7A#8) :
    charMask cfg c = charMask cfg (c - 0x20#8) := charMask_congr (foldCase_sub h).symm

/-- Codes that no font of R4 reaches: they fold to themselves and lie below 0x20 or above 0x7E. -/
theorem charMask_unprintable (cfg : Config) {c : CharCode} (h : c ≤ 0x1F#8 ∨ 0x7F#8 ≤ c) :
    charMask cfg c = 0#16 := by
  have hfold : ∀ c : CharCode, c ≤ 0x1F#8 ∨ 0x7F#8 ≤ c → foldCase c = c := by decide
  have hmin := cfg.fontMin_ge
  have hmax := cfg.fontMax_le
  apply charMask_blank
  rw [hfold c h]
  bv_omega

/-- Of the font only the entries in range that are no lower-case letters are read (R87). -/
theorem charMask_congr_font {cfg cfg' : Config} (hmin : cfg.fontMin = cfg'.fontMin)
    (hmax : cfg.fontMax = cfg'.fontMax)
    (hfont : ∀ u, cfg.fontMin ≤ u → u ≤ cfg.fontMax → ¬ (0x61#8 ≤ u ∧ u ≤ 0x7A#8) →
      cfg.font u = cfg'.font u) (c : CharCode) : charMask cfg c = charMask cfg' c := by
  by_cases h : foldCase c < cfg.fontMin ∨ cfg.fontMax < foldCase c
  · rw [charMask_blank h, charMask_blank (hmin ▸ hmax ▸ h)]
  · rw [charMask_font h, charMask_font (hmin ▸ hmax ▸ h)]
    rw [not_or, BitVec.not_lt, BitVec.not_lt] at h
    exact hfont _ h.1 h.2 (foldCase_not_lower c)

/-- Settles O29: each part is a fact about the fold or about the range test; the blank character in range is
the space of a font without a lit segment. -/
theorem charMaskProperties : Obligations.CharMaskProperties := by
  refine ⟨fun cfg c h1 h2 => charMask_sub cfg ⟨h1, h2⟩, fun cfg c => charMask_blank,
    fun cfg c => charMask_unprintable cfg, fun cfg cfg' => charMask_congr_font, ?fixed,
    ⟨{}, 0x20#8, by decide, by decide, by decide⟩, fun c s s' => ⟨_, _, rfl, rfl, rfl⟩⟩
  case fixed => decide

/-! ## Composed frames -/

/-- Bits 23 to 8 of a composed frame are the left mask's. -/
theorem getLsbD_composeFrame_left (cfg : Config) (l r : CharCode) {i : Nat} (h : 8 ≤ i) (h' : i < 24) :
    (composeFrame cfg l r).getLsbD i = (charMask cfg l).getLsbD (i - 8) := by
  rw [composeFrame, getLsbD_frameOf, if_neg (by omega), if_pos h']

/-- The other bits are the right mask's. -/
theorem getLsbD_composeFrame_right (cfg : Config) (l l' r : CharCode) {i : Nat} (h : i < 8 ∨ 24 ≤ i) :
    (composeFrame cfg l r).getLsbD i = (composeFrame cfg l' r).getLsbD i := by
  rw [composeFrame, composeFrame, getLsbD_frameOf, getLsbD_frameOf]
  rcases h with h | h
  · rw [if_pos h, if_pos h]
  · simp only [show ¬ i < 8 by omega, show ¬ i < 24 by omega, if_false]

/-- A font of two characters, the space blank and code 0x21 with every segment lit. -/
def twoCharFont : Config where
  fontMax := 0x21#8
  font := fun c => if c = 0x21#8 then 0xFFFF#16 else 0#16

/-- Settles O31: the two masks lie in separate bits of the frame, which a font with a blank and a full character
shows not to be symmetric. -/
theorem composeProperties : Obligations.ComposeProperties := by
  refine ⟨fun cfg l r => ⟨leftOf_composeFrame .., rightOf_composeFrame ..⟩, fun cfg l r hl hr => ?blank,
    fun cfg l r r' i h h' => ?left, fun cfg l l' r i => getLsbD_composeFrame_right cfg l l' r,
    ⟨twoCharFont, 0x20#8, 0x21#8, by decide, by decide, by decide⟩, fun cfg l r hl hl' hr hr' => ?lower⟩
  case blank =>
    rw [composeFrame, charMask_blank hl, charMask_blank hr]
    rfl
  case left => rw [getLsbD_composeFrame_left _ _ _ h h', getLsbD_composeFrame_left _ _ _ h h']
  case lower =>
    rw [composeFrame, charMask_sub cfg ⟨hl, hl'⟩, charMask_sub cfg ⟨hr, hr'⟩, composeFrame]

/-! ## The pin state that a list of events leaves -/

/-- The level that an event drives a pin to. -/
def Event.drives (p : Pin) : Event → Option Level
  | .set q l => if q = p then some l else none
  | _ => none

/-- What `replay` leaves at a pin is decided event by event, the last one first. -/
theorem replay_pin (es : List Event) (p : Pin) :
    ((sparseGet PinState.untouched (replay es) p.number).mode = .output ↔ .cfg p ∈ es) ∧
    (sparseGet PinState.untouched (replay es) p.number).level =
      match (es.filterMap (Event.drives p)).getLast? with
      | some l => .driven l
      | none => .unknown := by
  induction es using List.reverseRecOn with
  | nil => exact ⟨by simp [replay, sparseGet, PinState.untouched], rfl⟩
  | append_singleton es e ih =>
    obtain ⟨hmode, hlevel⟩ := ih
    have hwf : sparseWf PinState.untouched (replay es) = true := foldl_applyEvent_wf sparseWf_nil
    rw [replay_append, List.foldl_cons, List.foldl_nil]
    cases e with
    | cfg q =>
      rw [sparseGet_applyEvent_cfg hwf]
      by_cases hq : p = q
      · subst hq; simp [hlevel, Event.drives]
      · simp [hlevel, hmode, Event.drives, hq]
    | set q l =>
      rw [sparseGet_applyEvent_set hwf]
      by_cases hq : p = q
      · subst hq; simp [hmode, Event.drives]
      · simp [hlevel, hmode, Event.drives, hq, Ne.symm hq]
    | dlyUs n => simp [applyEvent, hlevel, hmode, Event.drives]
    | dlyMs n => simp [applyEvent, hlevel, hmode, Event.drives]

/-- Settles O47, by induction over the events, the last one first. -/
theorem pinStateIsLastWritten : Obligations.PinStateIsLastWritten := by
  intro es p
  exact replay_pin es p

end Sys2Proof.Machine
end

section
/-! What a tick of a busy engine can do, said once for the three commands that write a frame, and the event
grain reaching the state of the whole command (R8, R17). -/

namespace Sys2Proof.Machine

open Sys2Proof

/-! ## Positions inside a frame write -/

/-- `FrameWrite cfg M k f inside after`: there is a command, with host memory `M`, that writes frame `f` to chain
`k` at the positions `inside pos ph` and goes on with `after`: `WRFRAME`, an animation frame of `SCROLL`, a step
of `DTEST`. -/
inductive FrameWrite (cfg : Config) (M : Memory) :
    Nat → SegFrame → (Fin 36 → Fin 4 → SeqPos) → (State → State) → Prop
  | frm (k : Nat) (f : SegFrame) : FrameWrite cfg M k f (.frm k f) (·.complete none)
  | scr (m t : Nat) (q : Marquee) (frame k : Nat) :
    FrameWrite cfg M k (q.frameFor cfg M m k) (fun pos ph => .scr m t q frame (.write k pos ph))
      (afterModule m t q frame k)
  | swp (k c : Nat) :
    FrameWrite cfg M k (sweepFrame cfg c) (fun pos ph => .swp k c (.write pos ph))
      (·.goTo (.swp k c .delay))

section FrameWrite

variable {cfg : Config} {M : Memory} {k : Nat} {f : SegFrame} {inside : Fin 36 → Fin 4 → SeqPos}
  {after : State → State}

/-- A tick at such a position is a tick of the frame write. -/
theorem FrameWrite.tick_eq {s : State} (hw : FrameWrite cfg s.msg k f inside after) {ch : Chain}
    (hch : s.reg[k]? = some ch) {pos : Fin 36} {ph : Fin 4} (hseq : s.seq = inside pos ph) :
    tick cfg s = .next (tickFrame cfg k ch f pos ph inside after s) := by
  cases hw <;> rw [tick, hseq] <;> simp only [hch]

/-- What follows a frame write moves `SEQ` to a position before the next event, and may end the command. -/
theorem FrameWrite.after_eq (hw : FrameWrite cfg M k f inside after) (s : State) :
    ∃ r p, after s = { s with res := r, seq := p } ∧ p.clockHigh = none := by
  cases hw with
  | frm k f => exact ⟨none, .idle, rfl, rfl⟩
  | scr m t q frame k =>
    cases k with
    | zero => exact ⟨s.res, _, rfl, rfl⟩
    | succ j => exact ⟨s.res, _, rfl, rfl⟩
  | swp k c => exact ⟨s.res, _, rfl, rfl⟩

end FrameWrite

/-! ## One tick -/

/-- What a tick of a busy engine is: an event of a registration, of a bare bit write, of a frame write, or one of
the two delays. -/
theorem tick_cases {cfg : Config} {s t : State} (hbusy : s.seq ≠ .idle) (h : tick cfg s = .next t) :
    (∃ d c e, s.seq = .reg d c e ∧ t = tickReg d c e s) ∨
    (∃ k ch b ph, s.seq = .bit k b ph ∧ s.reg[k]? = some ch ∧ t = tickBit cfg k ch b ph s) ∨
    (∃ k ch f pos ph inside after, FrameWrite cfg s.msg k f inside after ∧ s.seq = inside pos ph ∧
      s.reg[k]? = some ch ∧ t = tickFrame cfg k ch f pos ph inside after s) ∨
    (∃ m d q frame, s.seq = .scr m d q frame .delay ∧ t = tickScrollDelay m d q frame s) ∨
    (∃ k c, s.seq = .swp k c .delay ∧ t = tickSweepDelay cfg k c s) := by
  have hframe : ∀ {k f inside after pos ph}, FrameWrite cfg s.msg k f inside after →
      s.seq = inside pos ph → tick cfg s = .next t → (s.reg[k]? = none → tick cfg s = .fault (.emptySlot k)) →
      ∃ k ch f pos ph inside after, FrameWrite cfg s.msg k f inside after ∧ s.seq = inside pos ph ∧
        s.reg[k]? = some ch ∧ t = tickFrame cfg k ch f pos ph inside after s := by
    intro k f inside after pos ph hw hseq h hnone
    cases hch : s.reg[k]? with
    | none => rw [hnone hch] at h; cases h
    | some ch =>
      rw [hw.tick_eq hch hseq] at h
      exact ⟨k, ch, f, pos, ph, inside, after, hw, hseq, hch, (Host.Outcome.next.inj h).symm⟩
  cases hseq : s.seq with
  | idle => exact absurd hseq hbusy
  | reg d c e =>
    rw [tick, hseq] at h
    exact .inl ⟨d, c, e, rfl, (Host.Outcome.next.inj h).symm⟩
  | bit k b ph =>
    rw [tick, hseq] at h
    cases hch : s.reg[k]? with
    | none => simp [hch] at h
    | some ch =>
      simp only [hch] at h
      exact .inr (.inl ⟨k, ch, b, ph, rfl, hch, (Host.Outcome.next.inj h).symm⟩)
  | frm k f pos ph =>
    have := hframe (.frm k f) hseq h fun hnone => by rw [tick, hseq]; simp only [hnone]
    rw [hseq] at this
    exact .inr (.inr (.inl this))
  | scr m d q frame place =>
    cases place with
    | write k pos ph =>
      have := hframe (.scr m d q frame k) hseq h fun hnone => by rw [tick, hseq]; simp only [hnone]
      rw [hseq] at this
      exact .inr (.inr (.inl this))
    | delay =>
      rw [tick, hseq] at h
      exact .inr (.inr (.inr (.inl ⟨m, d, q, frame, rfl, (Host.Outcome.next.inj h).symm⟩)))
  | swp k c place =>
    cases place with
    | write pos ph =>
      have := hframe (.swp k c) hseq h fun hnone => by rw [tick, hseq]; simp only [hnone]
      rw [hseq] at this
      exact .inr (.inr (.inl this))
    | delay =>
      rw [tick, hseq] at h
      exact .inr (.inr (.inr (.inr ⟨k, c, rfl, (Host.Outcome.next.inj h).symm⟩)))

/-- `t` is `s` after one event: the event is on the trace and at the pins, and the host's things and the fault
mark are as they were. -/
structure State.Emits (s : State) (e : Event) (t : State) : Prop where
  pins : t.pins = applyEvent s.pins e
  trace : t.trace = s.trace ++ [e]
  msg : t.msg = s.msg
  inputs : t.inputs = s.inputs
  fault : t.fault = s.fault

section Emits

variable {cfg : Config} {s : State} {k : Nat} {ch : Chain}

theorem tickReg_emits (d c : Pin) (e : Fin 4) (s : State) :
    s.Emits (regEvent d c e) (tickReg d c e s) := by
  unfold tickReg
  split <;> exact ⟨rfl, rfl, rfl, rfl, rfl⟩

/-- The last of the four phases is the one that none follows. -/
theorem eq_three_of_not_lt {ph : Fin 4} (h : ¬ ph.val + 1 < 4) : ph = 3 := by
  ext
  simp
  omega

/-- Only after its last event does a registration write the slot and the entry of `DISP`. -/
theorem tickReg_cases (d c : Pin) (e : Fin 4) (s : State) :
    (∃ h : e.val + 1 < 4, tickReg d c e s = (s.emit (regEvent d c e)).goTo (.reg d c ⟨e.val + 1, h⟩)) ∨
    (e = 3 ∧ tickReg d c e s = (s.emit (regEvent d c e)).registered d c) := by
  by_cases h : e.val + 1 < 4
  · exact .inl ⟨h, by simp only [tickReg, h, dif_pos]⟩
  · exact .inr ⟨eq_three_of_not_lt h, by simp only [tickReg, h, dif_neg, not_false_eq_true]⟩

/-- A tick of a bare bit write goes on in the bit or ends the command. -/
theorem tickBit_cases (cfg : Config) (k : Nat) (ch : Chain) (b : Bool) (ph : Fin 4) (s : State) :
    (∃ h : ph.val + 1 < 4,
      tickBit cfg k ch b ph s = (s.emit (bitEvent cfg ch b ph)).goTo (.bit k b ⟨ph.val + 1, h⟩)) ∨
    (ph = 3 ∧
      tickBit cfg k ch b ph s = ((s.emit (bitEvent cfg ch b ph)).setDisp k none).complete none) := by
  by_cases h : ph.val + 1 < 4
  · exact .inl ⟨h, by simp only [tickBit, h, dif_pos]⟩
  · exact .inr ⟨eq_three_of_not_lt h, by simp only [tickBit, h, dif_neg, not_false_eq_true]⟩

theorem tickBit_emits (b : Bool) (ph : Fin 4) :
    s.Emits (bitEvent cfg ch b ph) (tickBit cfg k ch b ph s) ∧ (tickBit cfg k ch b ph s).reg = s.reg := by
  unfold tickBit
  split <;> exact ⟨⟨rfl, rfl, rfl, rfl, rfl⟩, rfl⟩

variable {f : SegFrame} {inside : Fin 36 → Fin 4 → SeqPos} {after : State → State}

/-- A tick of a frame write: the event, the registry kept, and `DISP[k]` written after the last one. -/
theorem FrameWrite.tickFrame_emits {M : Memory} (hw : FrameWrite cfg M k f inside after) (pos : Fin 36)
    (ph : Fin 4) :
    s.Emits (bitEvent cfg ch (wire f pos.val) ph) (tickFrame cfg k ch f pos ph inside after s) ∧
      (tickFrame cfg k ch f pos ph inside after s).reg = s.reg ∧
      ((tickFrame cfg k ch f pos ph inside after s).disp = s.disp ∨
        (tickFrame cfg k ch f pos ph inside after s).disp = s.disp.set k (some f)) := by
  rcases tickFrame_cases cfg k ch f pos ph inside after s with ⟨_, h⟩ | ⟨_, _, h⟩ | ⟨_, _, h⟩
  · rw [h]; exact ⟨⟨rfl, rfl, rfl, rfl, rfl⟩, rfl, .inl rfl⟩
  · rw [h]; exact ⟨⟨rfl, rfl, rfl, rfl, rfl⟩, rfl, .inl rfl⟩
  · obtain ⟨r, p, hafter, -⟩ :=
      hw.after_eq ((s.emit (bitEvent cfg ch (wire f pos.val) ph)).setDisp k (some f))
    rw [h, hafter]
    exact ⟨⟨rfl, rfl, rfl, rfl, rfl⟩, rfl, .inr rfl⟩

theorem tickScrollDelay_emits (m d : Nat) (q : Marquee) (frame : Nat) :
    s.Emits (.dlyMs d) (tickScrollDelay m d q frame s) ∧ (tickScrollDelay m d q frame s).reg = s.reg ∧
      (tickScrollDelay m d q frame s).disp = s.disp := by
  unfold tickScrollDelay
  split <;> exact ⟨⟨rfl, rfl, rfl, rfl, rfl⟩, rfl, rfl⟩

theorem tickSweepDelay_emits (c : Nat) :
    s.Emits (.dlyMs cfg.tSweepMs) (tickSweepDelay cfg k c s) ∧ (tickSweepDelay cfg k c s).reg = s.reg ∧
      (tickSweepDelay cfg k c s).disp = s.disp := by
  unfold tickSweepDelay
  split <;> exact ⟨⟨rfl, rfl, rfl, rfl, rfl⟩, rfl, rfl⟩

end Emits

/-- Settles O45: each of the five kinds of tick emits its event, and only the last one of a registration writes
the registry. -/
theorem tickEmitsOneEvent : Obligations.TickEmitsOneEvent := by
  intro cfg s t hbusy h
  have key : ∃ e, s.Emits e t ∧
      (t.reg = s.reg ∨ ∃ d c, s.seq = .reg d c 3 ∧ t.reg = s.reg ++ [⟨d, c⟩]) := by
    rcases tick_cases hbusy h with ⟨d, c, e, hseq, rfl⟩ | ⟨k, ch, b, ph, -, -, rfl⟩ |
      ⟨k, ch, f, pos, ph, inside, after, hw, -, -, rfl⟩ | ⟨m, d, q, frame, -, rfl⟩ | ⟨k, c, -, rfl⟩
    · refine ⟨_, tickReg_emits d c e s, ?_⟩
      rcases tickReg_cases d c e s with ⟨_, ht⟩ | ⟨rfl, ht⟩
      · exact .inl (by rw [ht]; rfl)
      · exact .inr ⟨d, c, hseq, by rw [ht]; rfl⟩
    · exact ⟨_, (tickBit_emits b ph).1, .inl (tickBit_emits b ph).2⟩
    · obtain ⟨hemits, hreg, -⟩ := hw.tickFrame_emits (s := s) (ch := ch) pos ph
      exact ⟨_, hemits, .inl hreg⟩
    · obtain ⟨hemits, hreg, -⟩ := tickScrollDelay_emits (s := s) m d q frame
      exact ⟨_, hemits, .inl hreg⟩
    · obtain ⟨hemits, hreg, -⟩ := tickSweepDelay_emits (cfg := cfg) (s := s) (k := k) c
      exact ⟨_, hemits, .inl hreg⟩
  obtain ⟨e, hemits, hreg⟩ := key
  exact ⟨⟨e, hemits.trace, hemits.pins⟩, hemits.msg, hemits.inputs, hemits.fault, hreg⟩

/-! ## The whole command, event by event -/

/-- A registration in four ticks. -/
theorem ticks_regchain (cfg : Config) (d c : Pin) (s : State) :
    ticks cfg 4 (s.start (.reg d c 0)) = .next ((s.emitAll (regEvents d c)).registered d c) := rfl

/-- A bare bit write in four ticks. -/
theorem ticks_wrbit {cfg : Config} {k : Nat} {b : Bool} {ch : Chain} {s : State}
    (hch : s.reg[k]? = some ch) :
    ticks cfg 4 (s.start (.bit k b 0)) =
      .next (((s.emitAll (bitEvents cfg ch b)).setDisp k none).complete none) := by
  have htick : ∀ (u : State) (ph : Fin 4), u.reg = s.reg → u.seq = .bit k b ph →
      tick cfg u = .next (tickBit cfg k ch b ph u) := by
    intro u ph hreg hseq
    rw [tick, hseq]
    simp only [hreg, hch]
  change ticks cfg (0 + 1 + 1 + 1 + 1) _ = _
  rw [ticks_succ_of_next (htick _ 0 ?_ ?_), ticks_succ_of_next (htick _ 1 ?_ ?_),
    ticks_succ_of_next (htick _ 2 ?_ ?_), ticks_succ_of_next (htick _ 3 ?_ ?_)] <;> rfl

/-- A whole frame write, from a state whose `SEQ` is at its first event. -/
theorem FrameWrite.ticks_eq {cfg : Config} {k : Nat} {f : SegFrame} {inside : Fin 36 → Fin 4 → SeqPos}
    {after : State → State} {s : State} (hw : FrameWrite cfg s.msg k f inside after)
    (hgoTo : ∀ u p, after (u.goTo p) = after u) {ch : Chain} (hch : s.reg[k]? = some ch)
    (hseq : s.seq = inside 0 0) {n : Nat} (hn : n = 144) :
    ticks cfg n s = .next (after (s.frameOut cfg k ch f)) :=
  ticks_frame (R := s.reg) (M := s.msg)
    (fun u pos ph h1 h2 h3 => FrameWrite.tick_eq (by rw [h3]; exact hw) (by rw [h2]; exact hch) h1)
    hgoTo hn hseq rfl rfl

section AfterFrame

variable (cfg : Config) (m t : Nat) (q : Marquee) (s : State)

@[simp] theorem afterFrame_reg : (afterFrame cfg m t q s).reg = s.reg := by simp [afterFrame]
@[simp] theorem afterFrame_count : (afterFrame cfg m t q s).count = s.count := by simp [afterFrame]
@[simp] theorem afterFrame_msg : (afterFrame cfg m t q s).msg = s.msg := by simp [afterFrame]
@[simp] theorem afterFrame_inputs : (afterFrame cfg m t q s).inputs = s.inputs := by simp [afterFrame]
@[simp] theorem afterFrame_fault : (afterFrame cfg m t q s).fault = s.fault := by simp [afterFrame]

/-- An animation frame does not look at `RES` and `SEQ`. -/
theorem afterFrame_start (p : SeqPos) :
    afterFrame cfg m t q (s.start p) = (afterFrame cfg m t q s).start p := by
  ext1 <;> simp [afterFrame]

end AfterFrame

/-- The first position of an animation frame depends on `COUNT` and host memory alone. -/
theorem State.scrollFrameStart_congr {s u : State} (hcount : u.count = s.count) (hmsg : u.msg = s.msg)
    (m t : Nat) (q : Marquee) (frame : Nat) :
    u.scrollFrameStart m t q frame = s.scrollFrameStart m t q frame := by
  rw [State.scrollFrameStart, State.scrollFrameStart, hcount, hmsg]

/-- A whole animation frame of a `SCROLL` under way, from its first event. -/
theorem ticks_frameStart (cfg : Config) (m t frame : Nat) (q : Marquee) (s : State) :
    ticks cfg (144 * s.count + 1) (s.start (s.scrollFrameStart m t q frame)) =
      .next (if (q.advance s.msg m).lo < 0 then (afterFrame cfg m t q s).complete none
        else (afterFrame cfg m t q s).start
          ((afterFrame cfg m t q s).scrollFrameStart m t (q.advance s.msg m) (frame + 1))) := by
  refine (ticks_animationFrame (c := 144) rfl rfl).trans (congrArg _ ?_)
  rw [afterFrame_start, State.start_complete, State.start_goTo,
    State.scrollFrameStart_congr (afterFrame_count cfg m t q s) (afterFrame_msg cfg m t q s)]
  rfl

/-- The rounds of a `SCROLL`'s loop, ticked from the first event of a frame. -/
theorem exists_ticks_scrollLoop (cfg : Config) (m t rounds frame : Nat) (q : Marquee) (s : State) :
    ∃ n, ticks cfg n (s.start (s.scrollFrameStart m t q frame)) =
      .next (scrollLoop cfg m t rounds frame q s) := by
  induction rounds generalizing frame q s with
  | zero => exact ⟨0, rfl⟩
  | succ rounds ih =>
    have hframe := ticks_frameStart cfg m t frame q s
    rw [scrollLoop_succ]
    split at hframe
    · rename_i hlo
      exact ⟨_, by rw [hframe, if_pos hlo]⟩
    · rename_i hlo
      obtain ⟨n, hn⟩ := ih (frame + 1) (q.advance s.msg m) (afterFrame cfg m t q s)
      exact ⟨_ + n, by rw [ticks_add hframe, hn, if_neg hlo]⟩

/-- A whole step of a `DTEST` under way, from its first event. -/
theorem ticks_sweepStart (cfg : Config) {k : Nat} {ch : Chain} (c : Nat) {s : State}
    (hch : s.reg[k]? = some ch) {n : Nat} (hn : n = 144) :
    ticks cfg (n + 1) (s.start (sweepStart k c)) =
      .next (if c + 2 ≤ cfg.fontMax.toNat then (afterSweep cfg k ch c s).start (sweepStart k (c + 2))
        else (afterSweep cfg k ch c s).complete none) := by
  rw [ticks_add (FrameWrite.ticks_eq (s := s.start (sweepStart k c)) (FrameWrite.swp k c)
      (fun _ _ => rfl) hch rfl hn), ticks_succ_of_next rfl, ticks_zero, tickSweepDelay]
  refine congrArg _ ?_
  split <;> ext1 <;> simp [afterSweep]

/-- The rounds of a `DTEST`'s loop, ticked from the first event of a step. -/
theorem exists_ticks_sweepLoop (cfg : Config) {k : Nat} {ch : Chain} (rounds c : Nat) {s : State}
    (hch : s.reg[k]? = some ch) (hc : c ≤ cfg.fontMax.toNat) :
    ∃ n, ticks cfg n (s.start (sweepStart k c)) = .next (sweepLoop cfg k ch rounds c s) := by
  induction rounds generalizing c s with
  | zero => exact ⟨0, by rw [sweepLoop, if_pos hc, ticks_zero]⟩
  | succ rounds ih =>
    have hstep := ticks_sweepStart cfg c hch (n := 144) rfl
    have hreg : (afterSweep cfg k ch c s).reg[k]? = some ch := by simpa [afterSweep] using hch
    rw [sweepLoop_succ, if_pos hc]
    split at hstep
    · rename_i hc'
      obtain ⟨n, hn⟩ := ih (c + 2) hreg hc'
      exact ⟨_ + n, by rw [ticks_add hstep, hn]⟩
    · rename_i hc'
      refine ⟨_, hstep.trans (congrArg _ ?_)⟩
      cases rounds <;> rw [sweepLoop, if_neg hc']

/-- The two ways through the chain-index check. -/
theorem State.withChain_cases (s : State) (k : Nat) :
    (∃ ch, s.reg[k]? = some ch ∧ ∀ body, s.withChain k body = body ch) ∨
    (s.count ≤ k ∧ ∀ body, s.withChain k body = s.raise (.chainIndexOutOfRange k)) := by
  rcases Nat.lt_or_ge k s.count with hk | hk
  · obtain ⟨ch, hch⟩ := State.exists_chain hk
    exact .inl ⟨ch, hch, fun _ => State.withChain_of_some hch⟩
  · exact .inr ⟨hk, fun _ => State.withChain_of_le hk⟩

/-- A frame write that is accepted and worked off reaches what the whole command gives. -/
theorem exists_ticks_wrframe (cfg : Config) (k : Nat) (f : SegFrame) (s : State) :
    ∃ n, ticks cfg n (startCommand cfg (.wrframe k f) s) = .next (wrframe cfg k f s) := by
  rw [startCommand, wrframe]
  rcases s.withChain_cases k with ⟨ch, hch, hbody⟩ | ⟨-, hbody⟩
  · rw [hbody, hbody]
    refine ⟨144, (FrameWrite.ticks_eq (s := s.start (.frm k f 0 0)) (.frm k f) (fun _ _ => rfl) hch rfl
      rfl).trans (congrArg _ ?_)⟩
    ext1 <;> simp
  · rw [hbody, hbody]
    exact ⟨0, rfl⟩

/-- Settles O44: the four events of a bit and of a registration, a frame's 144, and the loops round by
round. -/
theorem eventGrainReachesWholeCommand : Obligations.EventGrainReachesWholeCommand := by
  intro i s
  generalize hcfg : Config.engine = cfg
  cases i with
  | regchain d c =>
    rw [exec_regchain, startCommand, regchain, hcfg]
    split
    · exact ⟨0, rfl⟩
    · exact ⟨4, ticks_regchain ..⟩
  | wrbit k b =>
    rw [exec_wrbit, startCommand, wrbit, hcfg]
    rcases s.withChain_cases k with ⟨ch, hch, hbody⟩ | ⟨-, hbody⟩
    · rw [hbody, hbody]
      exact ⟨4, ticks_wrbit hch⟩
    · rw [hbody, hbody]
      exact ⟨0, rfl⟩
  | wrframe k f => rw [exec_wrframe, hcfg]; exact exists_ticks_wrframe cfg k f s
  | chmask c => rw [exec_chmask, hcfg]; exact ⟨0, rfl⟩
  | compose l r => rw [exec_compose, hcfg]; exact ⟨0, rfl⟩
  | wrchars k l r => rw [exec_wrchars, hcfg]; exact exists_ticks_wrframe cfg k (composeFrame cfg l r) s
  | scroll m t =>
    rw [exec_scroll, startCommand, scroll, hcfg]
    split
    · exact ⟨0, rfl⟩
    · exact exists_ticks_scrollLoop ..
  | dtest k c =>
    rw [exec_dtest, startCommand, dtest, hcfg]
    rcases s.withChain_cases k with ⟨ch, hch, hbody⟩ | ⟨-, hbody⟩
    · rw [hbody, hbody]
      split
      · rename_i hc
        exact exists_ticks_sweepLoop cfg _ _ hch hc
      · rename_i hc
        rw [sweepSteps, if_pos (by omega), sweepLoop, if_neg hc]
        exact ⟨0, rfl⟩
    · rw [hbody, hbody]
      exact ⟨0, rfl⟩

end Sys2Proof.Machine
end

section
/-! The invariant of the engine: what a tick, an accepted command and the host's other inputs do to it (R13, R14,
R17, R21, R72(b), R76, R102). -/

namespace Sys2Proof.Machine

open Sys2Proof

variable {cfg : Config} {s t : State}

/-! ## The clock clause -/

/-- `SeqPos.clockHigh` at phase `ph` of a bit write to chain `k`: the clock is high in phases 2 and 3. -/
def clockHighAt (k : Nat) (ph : Fin 4) : Option Nat := if 2 ≤ ph.val then some k else none

theorem State.clockLevel_of_none (h : s.seq.clockHigh = none) (ch : Chain) : s.clockLevel ch = .low := by
  rw [State.clockLevel, h]

theorem State.clockLevel_of_clockHighAt {k : Nat} {ch₀ : Chain} {ph : Fin 4}
    (h : s.seq.clockHigh = clockHighAt k ph) (hch : s.reg[k]? = some ch₀) (ch : Chain) :
    s.clockLevel ch = if 2 ≤ ph.val ∧ ch.clock = ch₀.clock then .high else .low := by
  rw [State.clockLevel, h, clockHighAt]
  by_cases hph : 2 ≤ ph.val
  · simp [hph, hch, eq_comm]
  · simp [hph]

/-- Between two events of a bit write every clock that is not a data pin is where its phase has it. -/
theorem State.clock_level_of_bitEvent {k : Nat} {ch₀ ch : Chain} {b : Bool} {ph : Fin 4}
    (hwf : sparseWf PinState.untouched s.pins = true) (hch₀ : s.reg[k]? = some ch₀)
    (hhigh : s.seq.clockHigh = clockHighAt k ph) (hreg : t.reg = s.reg)
    (hnext : t.seq.clockHigh = clockHighAt k (ph + 1)) (hdata : ch.clock ≠ ch₀.data)
    (hlevel : s.pinLevel ch.clock = .driven (s.clockLevel ch)) :
    (s.emit (bitEvent cfg ch₀ b ph)).pinLevel ch.clock = .driven (t.clockLevel ch) := by
  rw [State.clockLevel_of_clockHighAt hhigh hch₀] at hlevel
  rw [State.clockLevel_of_clockHighAt hnext (hreg ▸ hch₀), State.pinLevel_emit hwf]
  by_cases hc : ch.clock = ch₀.clock
  · rw [hc] at hdata
    fin_cases ph <;> simp_all [bitEvent]
  · fin_cases ph <;> simpa [hc, hdata, bitEvent] using hlevel

/-! ## One event -/

/-- An event that leaves the registry alone keeps the invariant when the clocks and `SEQ` come out right. -/
theorem State.Inv.of_emits (hs : s.Inv cfg) {e : Event} (he : s.Emits e t) (hreg : t.reg = s.reg)
    (hdisp : t.disp.length = s.disp.length)
    (hclock : ∀ ch ∈ s.reg, (∀ ch' ∈ s.reg, ch'.data ≠ ch.clock) →
      (s.emit e).pinLevel ch.clock = .driven (t.clockLevel ch))
    (hseq : t.SeqOk cfg) : t.Inv cfg := by
  have hpin : t.pin = (s.emit e).pin := by funext p; rw [State.pin, he.pins]; rfl
  have hcount : t.count = s.count := by rw [State.count, hreg, State.count]
  refine ⟨hcount ▸ hs.count_le, by rw [hdisp, hcount, hs.disp_length], he.msg ▸ hs.msg_wf, ?_, ?_,
    fun ch hch => ?_, fun ch hch hdata => ?_, hseq⟩
  · rw [he.pins]; exact applyEvent_wf hs.pins_wf
  · rw [he.pins, he.trace, replay_append, ← hs.pins_replay]; rfl
  · obtain ⟨hd, hc⟩ := hs.registered_output ch (hreg ▸ hch)
    rw [State.pinMode, State.pinMode, hpin]
    exact ⟨State.pinMode_emit_of_output hs.pins_wf hd, State.pinMode_emit_of_output hs.pins_wf hc⟩
  · rw [State.pinLevel, hpin]
    exact hclock ch (hreg ▸ hch) (hreg ▸ hdata)

/-- A step that emits nothing keeps the invariant when no pulse is under way before or after it. -/
theorem State.Inv.of_quiet (hs : s.Inv cfg) (hreg : t.reg = s.reg) (hdisp : t.disp = s.disp)
    (hpins : t.pins = s.pins) (htrace : t.trace = s.trace) (hmsg : t.msg.wf = true)
    (hlow : s.seq.clockHigh = none) (hlow' : t.seq.clockHigh = none) (hseq : t.SeqOk cfg) : t.Inv cfg := by
  have hpin : t.pin = s.pin := by funext p; rw [State.pin, hpins]; rfl
  have hcount : t.count = s.count := by rw [State.count, hreg, State.count]
  refine ⟨hcount ▸ hs.count_le, by rw [hdisp, hcount, hs.disp_length], hmsg, hpins ▸ hs.pins_wf,
    by rw [hpins, htrace, hs.pins_replay], fun ch hch => ?_, fun ch hch hdata => ?_, hseq⟩
  · rw [State.pinMode, State.pinMode, hpin]
    exact hs.registered_output ch (hreg ▸ hch)
  · rw [State.clockLevel_of_none hlow', State.pinLevel, hpin, ← State.clockLevel_of_none hlow ch]
    exact hs.clock_level ch (hreg ▸ hch) (hreg ▸ hdata)

/-- The clocks are low where no pulse is under way. -/
theorem State.Inv.clock_low (hs : s.Inv cfg) (hlow : s.seq.clockHigh = none) {ch : Chain} (hch : ch ∈ s.reg)
    (hdata : ∀ ch' ∈ s.reg, ch'.data ≠ ch.clock) : s.pinLevel ch.clock = .driven .low := by
  rw [hs.clock_level ch hch hdata, State.clockLevel_of_none hlow]

/-- An event of a bit write to a registered chain keeps the invariant. -/
theorem State.Inv.of_bitEvent (hs : s.Inv cfg) {k : Nat} {ch : Chain} {b : Bool} {ph : Fin 4}
    (hch : s.reg[k]? = some ch) (he : s.Emits (bitEvent cfg ch b ph) t) (hreg : t.reg = s.reg)
    (hdisp : t.disp.length = s.disp.length) (hhigh : s.seq.clockHigh = clockHighAt k ph)
    (hnext : t.seq.clockHigh = clockHighAt k (ph + 1)) (hseq : t.SeqOk cfg) : t.Inv cfg :=
  hs.of_emits he hreg hdisp (fun _ h hdata => State.clock_level_of_bitEvent hs.pins_wf hch hhigh hreg hnext
    (hdata ch (List.mem_of_getElem? hch)).symm (hs.clock_level _ h hdata)) hseq

/-- A delay outside a pulse keeps the invariant. -/
theorem State.Inv.of_delay (hs : s.Inv cfg) {n : Nat} (he : s.Emits (.dlyMs n) t) (hreg : t.reg = s.reg)
    (hdisp : t.disp = s.disp) (hlow : s.seq.clockHigh = none) (hlow' : t.seq.clockHigh = none)
    (hseq : t.SeqOk cfg) : t.Inv cfg :=
  hs.of_emits he hreg (hdisp ▸ rfl) (fun ch h hdata => by
    rw [State.clockLevel_of_none hlow']; exact hs.clock_low hlow h hdata) hseq

/-! ## The positions of a command -/

/-- The cursors at an animation frame's delay are those of the next frame. -/
theorem cursorsAfter_advance {M : Memory} {m n frame : Nat} (h : 1 ≤ frame) :
    (cursorsAfter M m n (frame - 1)).advance M m = cursorsAfter M m n frame := by
  obtain ⟨j, rfl⟩ := Nat.exists_eq_add_of_le' h
  rfl

/-- Animation frames are numbered from 1 (R102). -/
theorem scrollReaches.one_le {M : Memory} {m n frame : Nat} (h : scrollReaches M m n frame) : 1 ≤ frame := by
  obtain ⟨-, hframe, -⟩ := h
  exact hframe

/-- The first position of an animation frame is one that `SCROLL` reaches. -/
theorem State.seqOk_of_scrollFrameStart {m d frame : Nat}
    (hreach : scrollReaches s.msg m s.count frame)
    (hseq : s.seq = s.scrollFrameStart m d (cursorsAfter s.msg m s.count (frame - 1)) frame) :
    s.SeqOk cfg ∧ s.seq.clockHigh = none := by
  unfold State.scrollFrameStart at hseq
  split at hseq
  · rw [State.SeqOk, hseq]
    exact ⟨⟨hreach, cursorsAfter_advance hreach.one_le⟩, rfl⟩
  · rw [State.SeqOk, hseq]
    exact ⟨⟨by omega, hreach, rfl⟩, rfl⟩

section FrameWrite

variable {k : Nat} {f : SegFrame} {inside : Fin 36 → Fin 4 → SeqPos} {after : State → State}

theorem FrameWrite.clockHigh_inside {M : Memory} (hw : FrameWrite cfg M k f inside after) (pos : Fin 36)
    (ph : Fin 4) : (inside pos ph).clockHigh = clockHighAt k ph := by
  cases hw <;> rfl

/-- The positions of a frame write are reached together. -/
theorem FrameWrite.seqOk_inside {M : Memory} (hw : FrameWrite cfg M k f inside after)
    {pos pos' : Fin 36} {ph ph' : Fin 4} (hs : s.SeqOk cfg)
    (hseq : s.seq = inside pos ph) (hreg : t.reg = s.reg) (hmsg : t.msg = s.msg)
    (ht : t.seq = inside pos' ph') : t.SeqOk cfg := by
  rw [State.SeqOk, hseq] at hs
  rw [State.SeqOk, ht, State.count, hreg, hmsg]
  cases hw <;> exact hs

/-- What follows a frame write is reached with it. -/
theorem FrameWrite.seqOk_after {M : Memory} (hw : FrameWrite cfg M k f inside after) {pos : Fin 36} {ph : Fin 4}
    (hs : s.SeqOk cfg) (hseq : s.seq = inside pos ph) (hreg : t.reg = s.reg) (hmsg : t.msg = s.msg) :
    (after t).SeqOk cfg := by
  have hcount : t.count = s.count := by rw [State.count, hreg, State.count]
  rw [State.SeqOk, hseq] at hs
  cases hw with
  | frm k f => trivial
  | scr m d q frame k =>
    obtain ⟨hk, hreach, rfl⟩ := hs
    cases k with
    | zero =>
      change scrollReaches t.msg m t.count frame ∧ _ = cursorsAfter t.msg m t.count frame
      rw [hmsg, hcount]
      exact ⟨hreach, cursorsAfter_advance hreach.one_le⟩
    | succ j =>
      change j < t.count ∧ scrollReaches t.msg m t.count frame ∧
        _ = cursorsAfter t.msg m t.count (frame - 1)
      rw [hmsg, hcount]
      exact ⟨by omega, hreach, rfl⟩
  | swp k c =>
    change k < t.count ∧ c ≤ cfg.fontMax.toNat
    exact hcount.symm ▸ hs

/-- A tick of a frame write moves `SEQ` to a position that is reached. -/
theorem FrameWrite.seqOk_tickFrame (hw : FrameWrite cfg s.msg k f inside after) (hs : s.SeqOk cfg)
    {pos : Fin 36} {ph : Fin 4} (hseq : s.seq = inside pos ph) (ch : Chain) :
    (tickFrame cfg k ch f pos ph inside after s).SeqOk cfg := by
  rcases tickFrame_cases cfg k ch f pos ph inside after s with ⟨_, ht⟩ | ⟨-, _, ht⟩ | ⟨-, -, ht⟩
  · rw [ht]; exact hw.seqOk_inside hs hseq rfl rfl rfl
  · rw [ht]; exact hw.seqOk_inside hs hseq rfl rfl rfl
  · rw [ht]; exact hw.seqOk_after hs hseq rfl rfl

/-- A tick of a frame write keeps the invariant. -/
theorem FrameWrite.inv_tickFrame (hw : FrameWrite cfg s.msg k f inside after) (hs : s.Inv cfg) {ch : Chain}
    {pos : Fin 36} {ph : Fin 4} (hseq : s.seq = inside pos ph) (hch : s.reg[k]? = some ch) :
    (tickFrame cfg k ch f pos ph inside after s).Inv cfg := by
  obtain ⟨hemits, hreg, hdisp⟩ := hw.tickFrame_emits (s := s) (ch := ch) pos ph
  have hlen : (tickFrame cfg k ch f pos ph inside after s).disp.length = s.disp.length := by
    rcases hdisp with hdisp | hdisp <;> simp [hdisp]
  have hhigh : s.seq.clockHigh = clockHighAt k ph := by rw [hseq, hw.clockHigh_inside]
  refine hs.of_bitEvent hch hemits hreg hlen hhigh ?_ (hw.seqOk_tickFrame hs.seq_ok hseq ch)
  rcases tickFrame_cases cfg k ch f pos ph inside after s with ⟨h, ht⟩ | ⟨rfl, h, ht⟩ | ⟨rfl, -, ht⟩
  · rw [ht, State.goTo_seq, hw.clockHigh_inside]
    exact congrArg (clockHighAt k) (Fin.ext (Nat.mod_eq_of_lt h).symm)
  · rw [ht, State.goTo_seq, hw.clockHigh_inside]; rfl
  · obtain ⟨r, p, hafter, hp⟩ :=
      hw.after_eq ((s.emit (bitEvent cfg ch (wire f pos.val) 3)).setDisp k (some f))
    rw [ht, hafter]
    exact hp

end FrameWrite

/-! ## The other ticks -/

/-- A tick of a bare bit write keeps the invariant. -/
theorem State.Inv.tickBit (hs : s.Inv cfg) {k : Nat} {ch : Chain} {b : Bool} {ph : Fin 4}
    (hseq : s.seq = .bit k b ph) (hch : s.reg[k]? = some ch) : (tickBit cfg k ch b ph s).Inv cfg := by
  obtain ⟨hemits, hreg⟩ := tickBit_emits (cfg := cfg) (s := s) (k := k) (ch := ch) b ph
  have hk : k < s.count := (List.getElem?_eq_some_iff.1 hch).1
  have hhigh : s.seq.clockHigh = clockHighAt k ph := by rw [hseq]; rfl
  rcases tickBit_cases cfg k ch b ph s with ⟨h, ht⟩ | ⟨rfl, ht⟩
  · refine hs.of_bitEvent hch hemits hreg (by rw [ht]; rfl) hhigh ?_ ?_
    · rw [ht, State.goTo_seq]
      exact congrArg (clockHighAt k) (Fin.ext (Nat.mod_eq_of_lt h).symm)
    · rw [ht]; exact hk
  · refine hs.of_bitEvent hch hemits hreg (by rw [ht]; simp) hhigh ?_ ?_
    · rw [ht]; rfl
    · rw [ht]; trivial

/-- The delay of an animation frame ends the command or moves `SEQ` to a position that is reached. -/
theorem State.SeqOk.tickScrollDelay (hok : s.SeqOk cfg) {m d frame : Nat} {q : Marquee}
    (hseq : s.seq = .scr m d q frame .delay) :
    (tickScrollDelay m d q frame s).SeqOk cfg ∧ (tickScrollDelay m d q frame s).seq.clockHigh = none := by
  rw [State.SeqOk, hseq] at hok
  obtain ⟨⟨hnull, hframe, -⟩, rfl⟩ := hok
  rw [Machine.tickScrollDelay]
  split
  · exact ⟨trivial, rfl⟩
  · rename_i hlo
    exact State.seqOk_of_scrollFrameStart (frame := frame + 1) ⟨hnull, by omega, Int.not_lt.1 hlo⟩ rfl

/-- The delay of an animation frame keeps the invariant. -/
theorem State.Inv.tickScrollDelay (hs : s.Inv cfg) {m d frame : Nat} {q : Marquee}
    (hseq : s.seq = .scr m d q frame .delay) : (tickScrollDelay m d q frame s).Inv cfg := by
  obtain ⟨hemits, hreg, hdisp⟩ := tickScrollDelay_emits (s := s) m d q frame
  obtain ⟨hok, hlow⟩ := hs.seq_ok.tickScrollDelay hseq
  exact hs.of_delay hemits hreg hdisp (by rw [hseq]; rfl) hlow hok

/-- The delay of a step of the sweep keeps the invariant. -/
theorem State.Inv.tickSweepDelay (hs : s.Inv cfg) {k c : Nat} (hseq : s.seq = .swp k c .delay) :
    (tickSweepDelay cfg k c s).Inv cfg := by
  obtain ⟨hemits, hreg, hdisp⟩ := tickSweepDelay_emits (cfg := cfg) (s := s) (k := k) c
  have hlow : s.seq.clockHigh = none := by rw [hseq]; rfl
  have hok := hs.seq_ok
  rw [State.SeqOk, hseq] at hok
  obtain ⟨hk, -⟩ := hok
  have key : (Machine.tickSweepDelay cfg k c s).SeqOk cfg ∧
      (Machine.tickSweepDelay cfg k c s).seq.clockHigh = none := by
    rw [Machine.tickSweepDelay]
    split
    · rename_i hc
      exact ⟨⟨hk, hc⟩, rfl⟩
    · exact ⟨trivial, rfl⟩
  exact hs.of_delay hemits hreg hdisp hlow key.2 key.1

/-! ## Registration -/

theorem State.pinMode_emit_cfg (hwf : sparseWf PinState.untouched s.pins = true) (p : Pin) :
    (s.emit (.cfg p)).pinMode p = .output := by
  rw [State.pinMode, State.pin_emit hwf]
  simp

/-- No event of a registration takes a pin away from the low level. -/
theorem State.pinLevel_emit_regEvent (hwf : sparseWf PinState.untouched s.pins = true) {p : Pin}
    (hp : s.pinLevel p = .driven .low) (d c : Pin) (e : Fin 4) :
    (s.emit (regEvent d c e)).pinLevel p = .driven .low := by
  rw [State.pinLevel_emit hwf]
  fin_cases e <;> simp [regEvent, hp]

/-- How far a registration has come: the data pin is configured first, then the clock pin (R71). -/
theorem State.pinMode_emit_regEvent (hwf : sparseWf PinState.untouched s.pins = true) {d c : Pin}
    {e : Fin 4} (hd : 1 ≤ e.val → s.pinMode d = .output) (hc : 2 ≤ e.val → s.pinMode c = .output) :
    (s.emit (regEvent d c e)).pinMode d = .output ∧
      (1 ≤ e.val → (s.emit (regEvent d c e)).pinMode c = .output) := by
  constructor
  · by_cases he : 1 ≤ e.val
    · exact State.pinMode_emit_of_output hwf (hd he)
    · obtain rfl : e = 0 := Fin.ext (by show e.val = 0; omega)
      exact State.pinMode_emit_cfg hwf d
  · intro he
    by_cases he' : 2 ≤ e.val
    · exact State.pinMode_emit_of_output hwf (hc he')
    · obtain rfl : e = 1 := Fin.ext (by show e.val = 1; omega)
      exact State.pinMode_emit_cfg hwf c

/-- A new chain on two outputs, its clock low, keeps the invariant. -/
theorem State.Inv.registered (hs : s.Inv cfg) {d c : Pin} (hlow : s.seq.clockHigh = none)
    (hfull : s.count < cfg.maxChains) (hd : s.pinMode d = .output) (hc : s.pinMode c = .output)
    (hlevel : s.pinLevel c = .driven .low) : (s.registered d c).Inv cfg := by
  have hidle : ∀ ch, (s.registered d c).clockLevel ch = .low := fun ch => State.clockLevel_of_none rfl ch
  refine ⟨?_, ?_, hs.msg_wf, hs.pins_wf, hs.pins_replay, fun ch hch => ?_, fun ch hch hdata => ?_, trivial⟩
  · simpa [State.registered] using hfull
  · simpa [State.registered] using hs.disp_length
  · rcases List.mem_append.1 hch with hch | hch
    · exact hs.registered_output ch hch
    · obtain rfl := List.mem_singleton.1 hch
      exact ⟨hd, hc⟩
  · rw [hidle]
    rcases List.mem_append.1 hch with hch | hch
    · exact hs.clock_low hlow hch fun ch' hch' => hdata ch' (List.mem_append_left _ hch')
    · obtain rfl := List.mem_singleton.1 hch
      exact hlevel

/-- A tick of a registration keeps the invariant. -/
theorem State.Inv.tickReg (hs : s.Inv cfg) {d c : Pin} {e : Fin 4} (hseq : s.seq = .reg d c e) :
    (tickReg d c e s).Inv cfg := by
  have hlow : s.seq.clockHigh = none := by rw [hseq]; rfl
  have hok := hs.seq_ok
  rw [State.SeqOk, hseq] at hok
  obtain ⟨hfull, hd, hc⟩ := hok
  obtain ⟨hd', hc'⟩ := State.pinMode_emit_regEvent hs.pins_wf hd hc
  have hinv : ∀ p : SeqPos, p.clockHigh = none → ((s.emit (regEvent d c e)).goTo p).SeqOk cfg →
      ((s.emit (regEvent d c e)).goTo p).Inv cfg := fun p hp hok =>
    hs.of_emits ⟨rfl, rfl, rfl, rfl, rfl⟩ rfl rfl (fun ch hch hdata => by
      rw [State.clockLevel_of_none hp]
      exact State.pinLevel_emit_regEvent hs.pins_wf (hs.clock_low hlow hch hdata) d c e) hok
  rcases tickReg_cases d c e s with ⟨h, ht⟩ | ⟨rfl, ht⟩
  · rw [ht]
    exact hinv _ rfl ⟨hfull, fun _ => hd', fun he => hc' (by simpa using he)⟩
  · rw [ht]
    exact (hinv .idle rfl trivial).registered rfl hfull hd' (hc' (by decide))
      (by rw [show (s.emit (regEvent d c 3)).goTo .idle = ((s.goTo .idle).emit (.set c .low)) from rfl,
            State.pinLevel_emit (s := s.goTo .idle) hs.pins_wf]; simp)

/-! ## Steps -/

/-- A tick keeps the invariant. -/
theorem State.Inv.tick (hs : s.Inv cfg) (h : tick cfg s = .next t) : t.Inv cfg := by
  by_cases hbusy : s.seq = .idle
  · rw [Machine.tick, hbusy] at h
    exact Host.Outcome.next.inj h ▸ hs
  · rcases tick_cases hbusy h with ⟨d, c, e, hseq, rfl⟩ | ⟨k, ch, b, ph, hseq, hch, rfl⟩ |
      ⟨k, ch, f, pos, ph, inside, after, hw, hseq, hch, rfl⟩ | ⟨m, d, q, frame, hseq, rfl⟩ | ⟨k, c, hseq, rfl⟩
    · exact hs.tickReg hseq
    · exact hs.tickBit hseq hch
    · exact hw.inv_tickFrame hs hseq hch
    · exact hs.tickScrollDelay hseq
    · exact hs.tickSweepDelay hseq

/-- Any number of ticks keeps the invariant. -/
theorem State.Inv.ticks {n : Nat} (hs : s.Inv cfg) (h : ticks cfg n s = .next t) : t.Inv cfg := by
  induction n generalizing s with
  | zero => exact Host.Outcome.next.inj h ▸ hs
  | succ n ih =>
    cases htick : Machine.tick cfg s with
    | next u => exact ih (hs.tick htick) (by rw [← h, Machine.ticks, htick])
    | fault r => rw [Machine.ticks, htick] at h; cases h
    | refused r => rw [Machine.ticks, htick] at h; cases h

/-- An accepted command keeps the invariant: it completes, raises a fault reason, or stands at its first
event. -/
theorem State.Inv.startCommand (hs : s.Inv cfg) (hidle : s.seq = .idle) (i : Instr) :
    (startCommand cfg i s).Inv cfg := by
  have hlow : s.seq.clockHigh = none := by rw [hidle]; rfl
  have hcomplete : ∀ r, (s.complete r).Inv cfg := fun r =>
    hs.of_quiet rfl rfl rfl rfl hs.msg_wf hlow rfl trivial
  have hraise : ∀ r, (s.raise r).Inv cfg := fun r =>
    hs.of_quiet rfl rfl rfl rfl hs.msg_wf hlow rfl trivial
  have hstart : ∀ p : SeqPos, p.clockHigh = none → (s.start p).SeqOk cfg → (s.start p).Inv cfg :=
    fun p hp hok => hs.of_quiet rfl rfl rfl rfl hs.msg_wf hlow hp hok
  have hchain : ∀ k body, (k < s.count → (body : State).Inv cfg) → (s.withChain k fun _ => body).Inv cfg := by
    intro k body hbody
    rcases s.withChain_cases k with ⟨ch, hch, h⟩ | ⟨-, h⟩
    · rw [h]; exact hbody (List.getElem?_eq_some_iff.1 hch).1
    · rw [h]; exact hraise _
  cases i with
  | regchain d c =>
    rw [Machine.startCommand]
    split
    · exact hcomplete _
    · rename_i hfull
      exact hstart _ rfl ⟨Nat.lt_of_le_of_ne hs.count_le hfull, fun h => absurd h (by decide),
        fun h => absurd h (by decide)⟩
  | wrbit k b => exact hchain _ _ fun hk => hstart _ rfl hk
  | wrframe k f => exact hchain _ _ fun hk => hstart _ rfl hk
  | chmask c => exact hcomplete _
  | compose l r => exact hcomplete _
  | wrchars k l r => exact hchain _ _ fun hk => hstart _ rfl hk
  | scroll m d =>
    rw [Machine.startCommand]
    split
    · exact hcomplete _
    · rename_i hnull
      obtain ⟨hok, hlow'⟩ := State.seqOk_of_scrollFrameStart (cfg := cfg) (m := m) (d := d) (frame := 1)
        (s := s.start (s.scrollFrameStart m d (Marquee.init s.count) 1))
        ⟨hnull, Nat.le_refl 1, by simp [cursorsAfter]⟩ rfl
      exact hstart _ hlow' hok
  | dtest k c =>
    refine hchain _ _ fun hk => ?_
    split
    · rename_i hc
      exact hstart _ rfl ⟨hk, hc⟩
    · exact hcomplete _

/-- What an idle engine takes from the host keeps the invariant, when running a command does. -/
theorem State.Inv.accept (hs : s.Inv cfg) (hidle : s.seq = .idle)
    {run : Instr → State → Host.Outcome State Fault Refusal}
    (hrun : ∀ i u v, State.Inv cfg u → u.seq = .idle → run i u = .next v → v.Inv cfg)
    (h : accept run s = .next t) : t.Inv cfg := by
  have hlow : s.seq.clockHigh = none := by rw [hidle]; rfl
  have htake : ∀ rest, State.Inv cfg { s with inputs := rest } := fun rest =>
    hs.of_quiet rfl rfl rfl rfl hs.msg_wf hlow hlow (by rw [State.SeqOk, hidle]; trivial)
  unfold Machine.accept at h
  split at h
  · exact Host.Outcome.next.inj h ▸ hs
  · rename_i w rest hin
    unfold issueWord at h
    split at h
    · exact hrun _ _ _ (htake rest) hidle h
    · rw [← Host.Outcome.next.inj h]
      exact (htake rest).of_quiet rfl rfl rfl rfl hs.msg_wf hlow rfl trivial
  · rename_i i rest hin
    exact hrun _ _ _ (htake rest) hidle h
  · rw [← Host.Outcome.next.inj h]
    exact hs.of_quiet rfl rfl rfl rfl (Memory.write_wf hs.msg_wf) hlow hlow
      (by rw [State.SeqOk, hidle]; trivial)
  · rw [← Host.Outcome.next.inj h]
    exact ⟨Nat.zero_le _, rfl, hs.msg_wf, rfl, rfl, fun _ hch => absurd hch (List.not_mem_nil),
      fun _ hch => absurd hch (List.not_mem_nil), trivial⟩

/-- Settles O11: nothing is registered, no pin touched, nothing emitted, and `SEQ` is `IDLE`. -/
theorem resetMeetsInvariant : Obligations.ResetMeetsInvariant := fun _ =>
  ⟨Nat.zero_le _, rfl, rfl, rfl, rfl, fun _ hch => absurd hch (List.not_mem_nil),
    fun _ hch => absurd hch (List.not_mem_nil), trivial⟩

/-- Settles O13: an idle engine takes something from the host, a busy one ticks. -/
theorem eventStepKeepsInvariant : Obligations.EventStepKeepsInvariant := by
  intro cfg s t hs h
  unfold eventStep at h
  split at h
  · rename_i hidle
    exact hs.accept hidle (fun i u v hu hui huv => Host.Outcome.next.inj huv ▸ hu.startCommand hui i) h
  · exact hs.tick h

/-- A whole command keeps the invariant, since it is reached event by event. -/
theorem State.Inv.exec (hs : s.Inv Config.engine) (hidle : s.seq = .idle) {i : Instr}
    (h : exec i s = .next t) : t.Inv Config.engine := by
  obtain ⟨n, hn⟩ := eventGrainReachesWholeCommand i s
  exact (hs.startCommand hidle i).ticks (hn.trans h)

/-- Settles O12: as at the grain of events, with a command's events one after another. -/
theorem stepKeepsInvariant : Obligations.StepKeepsInvariant := by
  intro s t hs h
  by_cases hidle : s.seq = .idle
  · rw [step_of_idle hidle] at h
    exact hs.accept hidle (fun i u v hu hui huv => hu.exec hui huv) h
  · rw [step_of_busy hidle] at h
    exact hs.tick h

/-! ## No step stops -/

/-- Every command has a meaning on every state. -/
theorem exec_eq_next (i : Instr) (s : State) : ∃ t, exec i s = .next t := by
  cases i <;> exact ⟨_, rfl⟩

/-- A tick finds the chain it writes to in the registry. -/
theorem State.SeqOk.tick_eq_next (hok : s.SeqOk cfg) : ∃ t, tick cfg s = .next t := by
  have hwrite : ∀ {k f inside after pos ph}, FrameWrite cfg s.msg k f inside after → s.seq = inside pos ph →
      k < s.count → ∃ t, Machine.tick cfg s = .next t := fun hw hseq hk => by
    obtain ⟨ch, hch⟩ := State.exists_chain hk
    exact ⟨_, hw.tick_eq hch hseq⟩
  unfold State.SeqOk at hok
  split at hok
  · rename_i h; exact ⟨_, by rw [Machine.tick, h]⟩
  · rename_i h; exact ⟨_, by rw [Machine.tick, h]⟩
  · rename_i h
    obtain ⟨ch, hch⟩ := State.exists_chain hok
    exact ⟨_, by rw [Machine.tick, h]; simp only [hch]; rfl⟩
  · rename_i h; exact hwrite (.frm _ _) h hok
  · rename_i h; exact hwrite (.scr _ _ _ _ _) h hok.1
  · rename_i h; exact ⟨_, by rw [Machine.tick, h]⟩
  · rename_i k c place h
    cases place with
    | write pos ph => exact hwrite (.swp _ _) h hok.1
    | delay => exact ⟨_, by rw [Machine.tick, h]⟩

/-- An idle engine always has a next state, when every command does. -/
theorem accept_eq_next {run : Instr → State → Host.Outcome State Fault Refusal}
    (hrun : ∀ i u, ∃ v, run i u = .next v) (s : State) : ∃ t, accept run s = .next t := by
  unfold accept
  split
  · exact ⟨_, rfl⟩
  · unfold issueWord
    split
    · exact hrun _ _
    · exact ⟨_, rfl⟩
  · exact hrun _ _
  · exact ⟨_, rfl⟩
  · exact ⟨_, rfl⟩

/-- Settles O14: only a tick could stop, at a chain that is not registered, and the invariant excludes it. -/
theorem stepNeverStops : Obligations.StepNeverStops := by
  intro s hs
  by_cases hidle : s.seq = .idle
  · rw [step_of_idle hidle, eventStep, hidle]
    exact ⟨accept_eq_next exec_eq_next s, accept_eq_next (fun _ _ => ⟨_, rfl⟩) s⟩
  · have hevent : eventStep Config.engine s = tick Config.engine s := by
      unfold eventStep
      split
      · exact absurd ‹_› hidle
      · rfl
    rw [step_of_busy hidle, hevent]
    exact ⟨hs.seq_ok.tick_eq_next, hs.seq_ok.tick_eq_next⟩

end Sys2Proof.Machine
end

section
/-! What can be read off a frame write's events: how many of each kind (R78, R156), and what a receiver on its
pins or on others samples (R57, R76, R150). -/

namespace Sys2Proof.Machine

open Sys2Proof

/-! ## Adding up over a list of events -/

/-- A number that adds up over a list of events. -/
structure EventSum (μ : List Event → Nat) : Prop where
  nil : μ [] = 0
  append : ∀ es es', μ (es ++ es') = μ es + μ es'

theorem eventSum_length : EventSum List.length := ⟨rfl, fun _ _ => List.length_append⟩

theorem eventSum_count (e : Event) : EventSum (List.count e) := ⟨rfl, fun _ _ => List.count_append⟩

theorem eventSum_nominalUs : EventSum nominalUs := by
  refine ⟨rfl, fun es es' => ?_⟩
  induction es with
  | nil => simp [nominalUs]
  | cons e es ih => cases e <;> simp [nominalUs, ih, Nat.add_assoc]

theorem eventSum_nominalMs : EventSum nominalMs := by
  refine ⟨rfl, fun es es' => ?_⟩
  induction es with
  | nil => simp [nominalMs]
  | cons e es ih => cases e <;> simp [nominalMs, ih, Nat.add_assoc]

theorem EventSum.add {μ ν : List Event → Nat} (hμ : EventSum μ) (hν : EventSum ν) :
    EventSum fun es => μ es + ν es :=
  ⟨by rw [hμ.nil, hν.nil], fun es es' => by rw [hμ.append, hν.append]; omega⟩

section EventSum

variable {μ : List Event → Nat} (hμ : EventSum μ) {cfg : Config} {ch : Chain} {n : Nat}

include hμ

/-- Parts that each count the same. -/
theorem EventSum.sum_flatMap {α : Type} {g : α → List Event} {l : List α} (h : ∀ a ∈ l, μ (g a) = n) :
    μ (l.flatMap g) = l.length * n := by
  induction l with
  | nil => simpa using hμ.nil
  | cons a l ih =>
    rw [List.flatMap_cons, hμ.append, h a List.mem_cons_self,
      ih fun b hb => h b (List.mem_cons_of_mem _ hb), List.length_cons]
    ring

/-- A frame write is 36 bit writes. -/
theorem EventSum.sum_frameEvents (h : ∀ b, μ (bitEvents cfg ch b) = n) (f : SegFrame) :
    μ (frameEvents cfg ch f) = 36 * n := by
  rw [frameEvents, hμ.sum_flatMap fun p _ => h _, List.length_range]

end EventSum

theorem nominalUs_frameEvents (cfg : Config) (ch : Chain) (f : SegFrame) :
    nominalUs (frameEvents cfg ch f) = 36 * cfg.tPulseUs :=
  eventSum_nominalUs.sum_frameEvents (fun _ => rfl) f

theorem nominalMs_frameEvents (cfg : Config) (ch : Chain) (f : SegFrame) :
    nominalMs (frameEvents cfg ch f) = 0 :=
  (eventSum_nominalMs.sum_frameEvents (n := 0) (fun _ => rfl) f).trans (Nat.mul_zero _)

theorem count_dlyMs_frameEvents (cfg : Config) (ch : Chain) (f : SegFrame) (t : Nat) :
    (frameEvents cfg ch f).count (.dlyMs t) = 0 :=
  ((eventSum_count _).sum_frameEvents (n := 0) (fun _ => rfl) f).trans (Nat.mul_zero _)

/-! ## What a receiver samples -/

/-- The frame write as the bit writes of its wire bits. -/
theorem frameEvents_eq_flatMap_wire (cfg : Config) (ch : Chain) (f : SegFrame) :
    frameEvents cfg ch f = ((List.range 36).map (wire f)).flatMap (bitEvents cfg ch) := by
  rw [frameEvents, List.flatMap_map]

section Samples

variable {cfg : Config} {ch : Chain} {edge : Level}

/-- A receiver on the pins of the chain takes one bit, whichever edge it samples on. -/
theorem samples_bitEvents (h : ch.data ≠ ch.clock) (b : Bool) (dl : Level) (es : List Event) :
    samples edge ch.data ch.clock dl .low (bitEvents cfg ch b ++ es) =
      lvl b :: samples edge ch.data ch.clock (lvl b) .low es := by
  cases edge <;> simp [bitEvents, bitEvent, samples, h]

theorem samples_bits (h : ch.data ≠ ch.clock) (bits : List Bool) (dl : Level) :
    samples edge ch.data ch.clock dl .low (bits.flatMap (bitEvents cfg ch)) = bits.map lvl := by
  induction bits generalizing dl with
  | nil => rfl
  | cons b bits ih => rw [List.flatMap_cons, samples_bitEvents h, ih, List.map_cons]

theorem samples_frameEvents (h : ch.data ≠ ch.clock) (f : SegFrame) (dl : Level) :
    samples edge ch.data ch.clock dl .low (frameEvents cfg ch f) =
      (List.range 36).map fun p => lvl (wire f p) := by
  rw [frameEvents_eq_flatMap_wire, samples_bits h, List.map_map]
  rfl

end Samples

/-- Settles O22: each bit is on the data pin at both edges of its pulse. -/
theorem receiverSamplesProtocolFrame : Obligations.ReceiverSamplesProtocolFrame :=
  fun _ _ f dl h => ⟨samples_frameEvents h f dl, samples_frameEvents h f dl⟩

/-- Settles O21: what one bit write emits of each kind, 36 times. -/
theorem wrframeEventCounts : Obligations.WrframeEventCounts := by
  intro k f s ch hch
  have hch' : (wrframe Config.engine k f s).reg[k]? = some ch := by simpa [wrframe_of_chain hch] using hch
  refine ⟨_, _, frameEvents Config.engine ch f, exec_wrframe s k f, by simp [wrframe_of_chain hch],
    exec_wrframe _ k f, by simp [wrframe_of_chain hch'], length_frameEvents .., ?pulses,
    nominalUs_frameEvents .., nominalMs_frameEvents .., fun hne => ⟨?data, ?high, ?low, fun dl => ?edges⟩⟩
  case pulses => exact (eventSum_count _).sum_frameEvents (n := 1) (fun b => by simp [bitEvents, bitEvent]) f
  case data =>
    exact ((eventSum_count _).add (eventSum_count _)).sum_frameEvents (n := 1)
      (fun b => by cases b <;> simp [bitEvents, bitEvent, lvl, hne.symm]) f
  case high =>
    exact (eventSum_count _).sum_frameEvents (n := 1) (fun b => by simp [bitEvents, bitEvent, hne]) f
  case low =>
    exact (eventSum_count _).sum_frameEvents (n := 1) (fun b => by simp [bitEvents, bitEvent, hne]) f
  case edges => rw [samples_frameEvents hne, List.length_map, List.length_range]

/-! ## What a receiver on other pins samples -/

section Other

variable {cfg : Config} {ch other : Chain} {edge : Level}

/-- A clock pin that the written chain does not have takes no edge. -/
theorem samples_bits_of_apart (hd : other.clock ≠ ch.data) (hc : other.clock ≠ ch.clock)
    (bits : List Bool) (dl cl : Level) :
    samples edge other.data other.clock dl cl (bits.flatMap (bitEvents cfg ch)) = [] := by
  induction bits generalizing dl with
  | nil => rfl
  | cons b bits ih =>
    simp only [List.flatMap_cons, bitEvents, bitEvent, List.cons_append, List.nil_append, samples,
      hd.symm, hc.symm, if_false]
    split_ifs <;> exact ih _

/-- A shared clock pin takes one edge a bit, at which the data pin is where it was. -/
theorem samples_bits_of_shared_clock (hc : other.clock = ch.clock) (hne : ch.data ≠ ch.clock)
    (hdd : other.data ≠ ch.data) (bits : List Bool) (dl : Level) :
    samples edge other.data other.clock dl .low (bits.flatMap (bitEvents cfg ch)) =
      List.replicate bits.length dl := by
  induction bits with
  | nil => rfl
  | cons b bits ih =>
    rw [hc] at ih
    cases edge <;>
      simp [bitEvents, bitEvent, samples, hc, hne, hdd.symm, ih, List.replicate_succ]

/-- One change of a clock pin: an edge, or none. -/
theorem replicate_edgesTo_cons (l cl dl : Level) (ls : List Level) :
    List.replicate (edgesTo edge cl (l :: ls)) dl =
      if l ≠ cl ∧ l = edge then dl :: List.replicate (edgesTo edge l ls) dl
      else List.replicate (edgesTo edge l ls) dl := by
  rw [edgesTo]
  split
  · rw [Nat.add_comm, List.replicate_succ]
  · rw [Nat.zero_add]

/-- A clock pin that is the data pin of the written chain takes an edge for each change of the bits. -/
theorem samples_bits_of_data_clock (hc : other.clock = ch.data) (hne : ch.data ≠ ch.clock)
    (hdc : other.data ≠ ch.clock) (bits : List Bool) (dl cl : Level) :
    samples edge other.data other.clock dl cl (bits.flatMap (bitEvents cfg ch)) =
      List.replicate (edgesTo edge cl (bits.map lvl)) dl := by
  induction bits generalizing cl with
  | nil => rfl
  | cons b bits ih =>
    rw [List.map_cons, replicate_edgesTo_cons, ← ih]
    simp [bitEvents, bitEvent, samples, hc, hne.symm, hdc.symm]

/-- The same on the two pins the other way round: the data pin is low at each change. -/
theorem samples_bits_of_swapped (hc : other.clock = ch.data) (hne : ch.data ≠ ch.clock)
    (hdc : other.data = ch.clock) (bits : List Bool) (cl : Level) :
    samples edge other.data other.clock .low cl (bits.flatMap (bitEvents cfg ch)) =
      List.replicate (edgesTo edge cl (bits.map lvl)) .low := by
  induction bits generalizing cl with
  | nil => rfl
  | cons b bits ih =>
    rw [List.map_cons, replicate_edgesTo_cons, ← ih]
    simp [bitEvents, bitEvent, samples, hc, hne.symm, hdc]

end Other

/-- Settles O23: the four ways the clock pin can lie, each by induction over the bits. -/
theorem distinctPinsIsolateChains : Obligations.DistinctPinsIsolateChains := by
  intro cfg ch other f dl cl edge
  have hlvl : ((List.range 36).map fun p => lvl (wire f p)) = ((List.range 36).map (wire f)).map lvl := by
    rw [List.map_map]; rfl
  have hlen : ((List.range 36).map (wire f)).length = 36 := by rw [List.length_map, List.length_range]
  rw [hlvl, frameEvents_eq_flatMap_wire]
  refine ⟨fun hd hc => samples_bits_of_apart hd hc _ _ _, fun hc hne hdd _ => ?_,
    fun hc hne _ hdc => samples_bits_of_data_clock hc hne hdc _ _ _,
    fun hc hne hdc => samples_bits_of_swapped hc hne hdc _ _⟩
  rw [samples_bits_of_shared_clock hc hne hdd, hlen]

end Sys2Proof.Machine
end

section
/-! What a command can do, said once: the same effect on every state with the same registry and host memory (R11,
R18, R19, R30, R131). -/

namespace Sys2Proof.Machine

open Sys2Proof

/-! ## The effect of a command -/

/-- What a command does, whatever the state but for its registry and host memory: the events it emits, the slots
it writes, the reason it raises, what it makes of `DISP`, and where it leaves `RES` and `SEQ`. -/
structure Effect where
  events : List Event := []
  slots : List Chain := []
  raised : Option FaultReason := none
  display : List (Option SegFrame) → List (Option SegFrame) := id
  res : Option (BitVec 32) := none
  seq : SeqPos := .idle

/-- The state after the effect. -/
def Effect.on (E : Effect) (s : State) : State :=
  { s with
    reg := s.reg ++ E.slots
    disp := E.display s.disp
    pins := E.events.foldl applyEvent s.pins
    trace := s.trace ++ E.events
    res := E.res
    seq := E.seq
    fault := s.fault.or E.raised }

/-- Nothing that `DISP` says of a module is lost. -/
def KeepsFrames (g : List (Option SegFrame) → List (Option SegFrame)) : Prop :=
  ∀ (disp : List (Option SegFrame)) (k : Nat) (f : SegFrame), disp[k]? = some (some f) →
    ∃ f', (g disp)[k]? = some (some f')

theorem keepsFrames_id : KeepsFrames id := fun _ _ f h => ⟨f, h⟩

theorem KeepsFrames.comp {g g' : List (Option SegFrame) → List (Option SegFrame)} (h' : KeepsFrames g')
    (h : KeepsFrames g) : KeepsFrames (g' ∘ g) := fun disp k f hk => by
  obtain ⟨f', hf'⟩ := h disp k f hk
  exact h' _ _ f' hf'

theorem keepsFrames_set (k : Nat) (f : SegFrame) : KeepsFrames fun disp => disp.set k (some f) := by
  intro disp j f' hj
  have hlt := (List.getElem?_eq_some_iff.1 hj).1
  by_cases hjk : k = j
  · exact ⟨f, by rw [hjk, List.getElem?_set_self hlt]⟩
  · exact ⟨f', by rw [List.getElem?_set_ne hjk, hj]⟩

theorem keepsFrames_append (l : List (Option SegFrame)) : KeepsFrames (· ++ l) := fun disp k f hk =>
  ⟨f, by rw [List.getElem?_append_left (List.getElem?_eq_some_iff.1 hk).1, hk]⟩

theorem keepsFrames_moduleDisp (cfg : Config) (reg : List Chain) (M : Memory) (m : Nat) (q : Marquee)
    (n : Nat) : KeepsFrames (moduleDisp cfg reg M m q n) := by
  induction n with
  | zero => exact keepsFrames_id
  | succ k ih =>
    intro disp j f hj
    rw [moduleDisp]
    split
    · exact (ih.comp (keepsFrames_set k _)) disp j f hj
    · exact ih disp j f hj

/-- What R11, R18 and R131 allow as the effect of command `i` with registry `R`. -/
structure Effect.Admissible (cfg : Config) (R : List Chain) (i : Instr) (E : Effect) : Prop where
  slots : E.slots = [] ∨
    ∃ d c, i = .regchain d c ∧ R.length ≠ cfg.maxChains ∧ E.slots = [⟨d, c⟩] ∧ E.res = some 1#32
  raised : E.raised = none ∨
    ∃ k, E.raised = some (.chainIndexOutOfRange k) ∧ R.length ≤ k ∧ E.events = []
  shows : i.isPublic = true → KeepsFrames E.display

/-- An effect that writes no slot and raises nothing. -/
structure Effect.Plain (E : Effect) : Prop where
  slots : E.slots = []
  raised : E.raised = none
  shows : KeepsFrames E.display

theorem Effect.Plain.admissible {E : Effect} (h : E.Plain) (cfg : Config) (R : List Chain) (i : Instr) :
    E.Admissible cfg R i := ⟨.inl h.slots, .inl h.raised, fun _ => h.shows⟩

/-- Events and writes of frames, and then a plain effect, is a plain effect. -/
theorem exists_effect_after {R : List Chain} {M : Memory} {es : List Event}
    {g : List (Option SegFrame) → List (Option SegFrame)} (hg : KeepsFrames g) {F : State → State}
    (hF : ∃ E : Effect, E.Plain ∧ ∀ s, s.reg = R → s.msg = M → F s = E.on s) :
    ∃ E : Effect, E.Plain ∧ ∀ s, s.reg = R → s.msg = M →
      F { s.emitAll es with disp := g s.disp } = E.on s := by
  obtain ⟨E, hE, hF⟩ := hF
  refine ⟨{ E with events := es ++ E.events, display := E.display ∘ g },
    ⟨hE.slots, hE.raised, hE.shows.comp hg⟩, fun s hreg hmsg => ?_⟩
  rw [hF _ (by simpa using hreg) (by simpa using hmsg)]
  ext1 <;> simp [Effect.on]

theorem Effect.plain_complete (r : Option (BitVec 32)) : ({ res := r } : Effect).Plain :=
  ⟨rfl, rfl, keepsFrames_id⟩

theorem State.complete_eq_on (s : State) (r : Option (BitVec 32)) :
    s.complete r = ({ res := r } : Effect).on s := by
  ext1 <;> simp [Effect.on]

theorem State.start_eq_on (s : State) (p : SeqPos) : s.start p = ({ seq := p } : Effect).on s := by
  ext1 <;> simp [Effect.on]

theorem State.raise_eq_on (s : State) (r : FaultReason) :
    s.raise r = ({ raised := some r } : Effect).on s := by
  ext1 <;> simp [Effect.on, Option.or_some]

/-! ## The loops -/

/-- A message that ends: as many rounds as R105 counts frames. -/
theorem scroll_of_length {s : State} {m L : Nat} (hL : s.msg.messageLength m = some L)
    (hnull : s.msg.read m ≠ 0#8) (cfg : Config) (t : Nat) :
    scroll cfg m t s = scrollLoop cfg m t (scrollFrames L s.count) 1 (Marquee.init s.count) s := by
  rw [scroll, if_neg hnull, hL]

/-- A message that does not end: the engine is left at its first event (R109). -/
theorem scroll_of_no_length {s : State} {m : Nat} (hL : s.msg.messageLength m = none)
    (hnull : s.msg.read m ≠ 0#8) (cfg : Config) (t : Nat) :
    scroll cfg m t s = scrollLoop cfg m t 0 1 (Marquee.init s.count) s := by
  rw [scroll, if_neg hnull, hL]

/-- An animation frame as its events and what it makes of `DISP`. -/
theorem afterFrame_eq (cfg : Config) (m t : Nat) (q : Marquee) (s : State) :
    afterFrame cfg m t q s =
      { s.emitAll (moduleEvents cfg s.reg s.msg m q s.count ++ [.dlyMs t]) with
        disp := moduleDisp cfg s.reg s.msg m q s.count s.disp } := by
  rw [afterFrame, writeModules_eq, State.emitAll_append]
  rfl

/-- A step of the sweep as its events and what it makes of `DISP`. -/
theorem afterSweep_eq (cfg : Config) (k : Nat) (ch : Chain) (c : Nat) (s : State) :
    afterSweep cfg k ch c s =
      { s.emitAll (frameEvents cfg ch (sweepFrame cfg c) ++ [.dlyMs cfg.tSweepMs]) with
        disp := s.disp.set k (some (sweepFrame cfg c)) } := by
  ext1 <;> simp [afterSweep]

section Loops

variable (cfg : Config) (R : List Chain) (M : Memory)

theorem scrollLoop_effect (m t rounds frame : Nat) (q : Marquee) :
    ∃ E : Effect, E.Plain ∧ ∀ s, s.reg = R → s.msg = M → scrollLoop cfg m t rounds frame q s = E.on s := by
  induction rounds generalizing frame q with
  | zero =>
    refine ⟨{ seq := { State.reset with reg := R, msg := M }.scrollFrameStart m t q frame },
      ⟨rfl, rfl, keepsFrames_id⟩, fun s hreg hmsg => ?_⟩
    subst hreg hmsg
    exact s.start_eq_on _
  | succ rounds ih =>
    have hF : ∃ E : Effect, E.Plain ∧ ∀ s, s.reg = R → s.msg = M →
        (if (q.advance M m).lo < 0 then s.complete none
          else scrollLoop cfg m t rounds (frame + 1) (q.advance M m) s) = E.on s := by
      split
      · exact ⟨_, Effect.plain_complete none, fun s _ _ => s.complete_eq_on none⟩
      · exact ih _ _
    obtain ⟨E, hE, hon⟩ := exists_effect_after (es := moduleEvents cfg R M m q R.length ++ [.dlyMs t])
      (keepsFrames_moduleDisp cfg R M m q R.length) hF
    refine ⟨E, hE, fun s hreg hmsg => ?_⟩
    rw [scrollLoop_succ, ← hon s hreg hmsg, afterFrame_eq, State.count, hreg, hmsg]

theorem sweepLoop_effect (k : Nat) (ch : Chain) (rounds c : Nat) :
    ∃ E : Effect, E.Plain ∧ ∀ s, s.reg = R → s.msg = M → sweepLoop cfg k ch rounds c s = E.on s := by
  induction rounds generalizing c with
  | zero =>
    by_cases hc : c ≤ cfg.fontMax.toNat
    · exact ⟨{ seq := sweepStart k c }, ⟨rfl, rfl, keepsFrames_id⟩, fun s _ _ => by
        rw [sweepLoop, if_pos hc, State.start_eq_on]⟩
    · exact ⟨_, Effect.plain_complete none, fun s _ _ => by
        rw [sweepLoop, if_neg hc, State.complete_eq_on]⟩
  | succ rounds ih =>
    by_cases hc : c ≤ cfg.fontMax.toNat
    · obtain ⟨E, hE, hon⟩ := exists_effect_after
        (es := frameEvents cfg ch (sweepFrame cfg c) ++ [.dlyMs cfg.tSweepMs])
        (keepsFrames_set k (sweepFrame cfg c)) (ih (c + 2))
      exact ⟨E, hE, fun s hreg hmsg => by
        rw [sweepLoop_succ, if_pos hc, ← hon s hreg hmsg, afterSweep_eq]⟩
    · exact ⟨_, Effect.plain_complete none, fun s _ _ => by
        rw [sweepLoop_succ, if_neg hc, State.complete_eq_on]⟩

end Loops

/-! ## The commands -/

section Commands

variable (cfg : Config) (R : List Chain) (M : Memory)

theorem regchain_effect (d c : Pin) :
    ∃ E : Effect, E.Admissible cfg R (.regchain d c) ∧
      ∀ s, s.reg = R → s.msg = M → regchain cfg d c s = E.on s := by
  by_cases hfull : R.length = cfg.maxChains
  · refine ⟨_, (Effect.plain_complete (resBool false)).admissible cfg R _, fun s hreg _ => ?_⟩
    rw [regchain_of_full (by rw [State.count, hreg, hfull]), State.complete_eq_on]
  · refine ⟨{ events := regEvents d c, slots := [⟨d, c⟩], display := (· ++ [none]), res := resBool true },
      ⟨.inr ⟨d, c, rfl, hfull, rfl, rfl⟩, .inl rfl, fun _ => keepsFrames_append _⟩, fun s hreg _ => ?_⟩
    rw [regchain, if_neg (by rw [State.count, hreg]; exact hfull), State.registered]
    ext1 <;> simp [Effect.on]

/-- A command that runs on a registered chain has an effect when its body has one. -/
theorem withChain_effect {i : Instr} {k : Nat} {body : State → Chain → State}
    (h : ∀ ch, ∃ E : Effect, E.Admissible cfg R i ∧ ∀ s, s.reg = R → s.msg = M → body s ch = E.on s) :
    ∃ E : Effect, E.Admissible cfg R i ∧
      ∀ s, s.reg = R → s.msg = M → s.withChain k (body s) = E.on s := by
  cases hk : R[k]? with
  | some ch =>
    obtain ⟨E, hE, hon⟩ := h ch
    exact ⟨E, hE, fun s hreg hmsg => by
      rw [State.withChain_of_some (by rw [hreg, hk]), hon s hreg hmsg]⟩
  | none =>
    have hle : R.length ≤ k := List.getElem?_eq_none_iff.1 hk
    refine ⟨{ raised := some (.chainIndexOutOfRange k) },
      ⟨.inl rfl, .inr ⟨k, rfl, hle, rfl⟩, fun _ => keepsFrames_id⟩, fun s hreg _ => ?_⟩
    rw [State.withChain_of_le (by rw [State.count, hreg]; exact hle), State.raise_eq_on]

theorem wrframe_effect (i : Instr) (k : Nat) (f : SegFrame) :
    ∃ E : Effect, E.Admissible cfg R i ∧ ∀ s, s.reg = R → s.msg = M → wrframe cfg k f s = E.on s := by
  refine withChain_effect cfg R M (body := fun s ch => (s.frameOut cfg k ch f).complete none) fun ch => ?_
  refine ⟨{ events := frameEvents cfg ch f, display := fun disp => disp.set k (some f) },
    Effect.Plain.admissible ⟨rfl, rfl, keepsFrames_set k f⟩ cfg R i, fun s _ _ => ?_⟩
  ext1 <;> simp [Effect.on]

theorem scroll_effect (m t : Nat) :
    ∃ E : Effect, E.Plain ∧ ∀ s, s.reg = R → s.msg = M → scroll cfg m t s = E.on s := by
  by_cases hnull : M.read m = 0#8
  · refine ⟨_, Effect.plain_complete none, fun s _ hmsg => ?_⟩
    rw [scroll_of_null (by rw [hmsg, hnull]), State.complete_eq_on]
  · cases hL : M.messageLength m with
    | some L =>
      obtain ⟨E, hE, hon⟩ :=
        scrollLoop_effect cfg R M m t (scrollFrames L R.length) 1 (Marquee.init R.length)
      refine ⟨E, hE, fun s hreg hmsg => ?_⟩
      subst hreg hmsg
      rw [← hon s rfl rfl, scroll_of_length hL hnull, State.count]
    | none =>
      obtain ⟨E, hE, hon⟩ := scrollLoop_effect cfg R M m t 0 1 (Marquee.init R.length)
      refine ⟨E, hE, fun s hreg hmsg => ?_⟩
      subst hreg hmsg
      rw [← hon s rfl rfl, scroll_of_no_length hL hnull, State.count]

end Commands

/-- The effect of a command: one for all states with the same registry and host memory. -/
theorem exec_effect (i : Instr) (R : List Chain) (M : Memory) :
    ∃ E : Effect, E.Admissible Config.engine R i ∧
      ∀ s, s.reg = R → s.msg = M → exec i s = .next (E.on s) := by
  have of_meaning : ∀ F : State → State, (∀ s, exec i s = .next (F s)) →
      (∃ E : Effect, E.Admissible Config.engine R i ∧ ∀ s, s.reg = R → s.msg = M → F s = E.on s) →
      ∃ E : Effect, E.Admissible Config.engine R i ∧
        ∀ s, s.reg = R → s.msg = M → exec i s = .next (E.on s) := by
    rintro F hF ⟨E, hE, hon⟩
    exact ⟨E, hE, fun s hreg hmsg => by rw [hF, hon s hreg hmsg]⟩
  cases i with
  | regchain d c => exact of_meaning _ (exec_regchain · d c) (regchain_effect _ R M d c)
  | wrbit k b =>
    refine of_meaning _ (exec_wrbit · k b) (withChain_effect _ R M fun ch => ?_)
    refine ⟨{ events := bitEvents Config.engine ch b, display := fun disp => disp.set k none },
      ⟨.inl rfl, .inl rfl, fun h => nomatch h⟩, fun s _ _ => ?_⟩
    ext1 <;> simp [Effect.on]
  | wrframe k f => exact of_meaning _ (exec_wrframe · k f) (wrframe_effect _ R M _ k f)
  | chmask c =>
    exact of_meaning _ (exec_chmask · c)
      ⟨_, (Effect.plain_complete _).admissible _ R _, fun s _ _ => s.complete_eq_on _⟩
  | compose l r =>
    exact of_meaning _ (exec_compose · l r)
      ⟨_, (Effect.plain_complete _).admissible _ R _, fun s _ _ => s.complete_eq_on _⟩
  | wrchars k l r => exact of_meaning _ (exec_wrchars · k l r) (wrframe_effect _ R M _ k _)
  | scroll m t =>
    obtain ⟨E, hE, hon⟩ := scroll_effect Config.engine R M m t
    exact of_meaning _ (exec_scroll · m t) ⟨E, hE.admissible _ R _, hon⟩
  | dtest k c =>
    refine of_meaning _ (exec_dtest · k c) (withChain_effect _ R M fun ch => ?_)
    obtain ⟨E, hE, hon⟩ := sweepLoop_effect Config.engine R M k ch (sweepSteps Config.engine c.toNat) c.toNat
    exact ⟨E, hE.admissible _ R _, hon⟩

/-- What `exec` answers is the effect of the command on the state. -/
theorem exists_effect_of_exec {i : Instr} {s t : State} (h : exec i s = .next t) :
    ∃ E : Effect, E.Admissible Config.engine s.reg i ∧ t = E.on s := by
  obtain ⟨E, hE, hon⟩ := exec_effect i s.reg s.msg
  exact ⟨E, hE, Host.Outcome.next.inj (h.symm.trans (hon s rfl rfl))⟩

/-- Settles O17: an effect only appends slots, and at most one. -/
theorem registrySlotsAreWrittenOnce : Obligations.RegistrySlotsAreWrittenOnce := by
  intro i s t h
  obtain ⟨E, hE, rfl⟩ := exists_effect_of_exec h
  refine ⟨fun k hk => List.getElem?_append_left hk, ?_⟩
  rcases hE.slots with hnone | ⟨d, c, rfl, hfull, hslots, hres⟩
  · have hcount : (E.on s).count = s.count := by simp [State.count, Effect.on, hnone]
    exact ⟨.inl hcount, fun hle => hcount ▸ hle⟩
  · have hcount : (E.on s).count = s.count + 1 := by simp [State.count, Effect.on, hslots]
    exact ⟨.inr ⟨hcount, hfull, hres, d, c, rfl⟩, fun hle => hcount ▸ Nat.lt_of_le_of_ne hle hfull⟩

/-- Settles O34: an effect raises nothing, or an index out of range and then emits nothing. -/
theorem faultMarkIsSticky : Obligations.FaultMarkIsSticky := by
  refine ⟨fun i s t h => ?command, fun s t rest hidle hin h => ?newInstance⟩
  case command =>
    obtain ⟨E, hE, rfl⟩ := exists_effect_of_exec h
    refine ⟨fun r hr => by simp [Effect.on, hr], fun hclean => ?_⟩
    rcases hE.raised with hnone | ⟨k, hraised, hk, hevents⟩
    · exact .inl (by simp [Effect.on, hclean, hnone])
    · exact .inr ⟨k, by simp [Effect.on, hclean, hraised], hk, by simp [Effect.on, hevents]⟩
  case newInstance =>
    rw [step_newInstance hidle hin] at h
    rw [← Host.Outcome.next.inj h]
    rfl

/-- Settles O48: the two states undergo the same effect. -/
theorem commandsDependOnRegistryOnly : Obligations.CommandsDependOnRegistryOnly := by
  intro i s s' hreg hmsg
  obtain ⟨E, -, hon⟩ := exec_effect i s'.reg s'.msg
  exact ⟨E.on s, E.on s', E.events, hon s hreg hmsg, hon s' rfl rfl, rfl, rfl, rfl,
    congrArg (· ++ E.slots) hreg, rfl⟩

/-- Settles O49: an effect has no part in host memory or the inputs. -/
theorem commandsLeaveHostMemory : Obligations.CommandsLeaveHostMemory := by
  intro i s t h
  obtain ⟨E, -, rfl⟩ := exists_effect_of_exec h
  exact ⟨fun _ => rfl, rfl, rfl, E.events, rfl, rfl⟩

/-- Settles O50: only a bare bit write takes a frame out of `DISP`. -/
theorem publicCommandsKeepDisplay : Obligations.PublicCommandsKeepDisplay := by
  refine ⟨fun i s t k f hpublic h hk => ?whole, fun cfg s t k f hbit h hk => ?event⟩
  case whole =>
    obtain ⟨E, hE, rfl⟩ := exists_effect_of_exec h
    exact hE.shows hpublic _ k f hk
  case event =>
    by_cases hbusy : s.seq = .idle
    · rw [tick, hbusy] at h
      exact ⟨f, Host.Outcome.next.inj h ▸ hk⟩
    rcases tick_cases hbusy h with ⟨d, c, e, -, rfl⟩ | ⟨k', ch, b, ph, hseq, -, -⟩ |
      ⟨k', ch, f', pos, ph, inside, after, hw, -, -, rfl⟩ | ⟨m, d, q, frame, -, rfl⟩ | ⟨k', c, -, rfl⟩
    · rcases tickReg_cases d c e s with ⟨_, ht⟩ | ⟨-, ht⟩
      · exact ⟨f, by rw [ht]; exact hk⟩
      · rw [ht]; exact keepsFrames_append [none] _ k f hk
    · exact absurd hseq (hbit k' b ph)
    · obtain ⟨-, -, hdisp | hdisp⟩ := hw.tickFrame_emits (s := s) (ch := ch) pos ph
      · exact ⟨f, by rw [hdisp, hk]⟩
      · rw [hdisp]; exact keepsFrames_set k' f' _ k f hk
    · obtain ⟨-, -, hdisp⟩ := tickScrollDelay_emits (s := s) m d q frame
      exact ⟨f, by rw [hdisp, hk]⟩
    · obtain ⟨-, -, hdisp⟩ := tickSweepDelay_emits (cfg := cfg) (s := s) (k := k') c
      exact ⟨f, by rw [hdisp, hk]⟩

end Sys2Proof.Machine
end

section
/-! Registration (R71, R72), raising a fault reason (R125), a frame write as 36 bit writes (R66), and what a module
is said to show during and after a frame write (R22, R40). -/

namespace Sys2Proof.Machine

open Sys2Proof

variable {cfg : Config} {s : State}

/-! ## Registration -/

theorem State.pin_emit_cfg {q : Pin} (hwf : sparseWf PinState.untouched s.pins = true) (p : Pin) :
    (s.emit (.cfg q)).pin p = if p = q then ⟨.output, (s.pin p).level⟩ else s.pin p := by
  rw [State.pin_emit hwf]
  by_cases h : p = q
  · rw [h]
  · simp only [h, if_false]

/-- Both pins of a registration end as outputs at low, and no other pin moves. -/
theorem State.pin_emitAll_regEvents (hwf : sparseWf PinState.untouched s.pins = true) (d c p : Pin) :
    (s.emitAll (regEvents d c)).pin p =
      if p = c ∨ p = d then ⟨.output, .driven .low⟩ else s.pin p := by
  have hd := State.emit_pins_wf (.cfg d) hwf
  have hc := State.emit_pins_wf (.cfg c) hd
  have hsd := State.emit_pins_wf (.set d .low) hc
  simp only [regEvents, regEvent, State.emitAll_cons, State.emitAll_nil]
  rw [State.pin_emit_set hsd, State.pin_emit_set hc, State.pin_emit_cfg hd, State.pin_emit_cfg hwf]
  split_ifs <;> simp_all

theorem regchain_of_not_full {d c : Pin} (h : s.count ≠ cfg.maxChains) :
    regchain cfg d c s = (s.emitAll (regEvents d c)).registered d c := if_neg h

/-- Settles O15: a full registry completes at once, any other emits the four events and writes the slot. -/
theorem regchainAppendsChain : Obligations.RegchainAppendsChain := by
  refine ⟨fun d c s hfull => ?full, fun d c s hfull hwf => ?registered, fun d c hd hc => ?encoding⟩
  case full =>
    refine ⟨_, exec_regchain s d c, ?_⟩
    rw [regchain_of_full hfull]
    exact ⟨⟨⟨rfl, rfl, rfl, fun _ => rfl, rfl⟩, rfl, rfl, rfl⟩, rfl, rfl⟩
  case registered =>
    have hpin : (regchain Config.engine d c s).pin = fun p =>
        if p = c ∨ p = d then ⟨.output, .driven .low⟩ else s.pin p := by
      rw [regchain_of_not_full hfull]
      exact funext (State.pin_emitAll_regEvents hwf d c)
    refine ⟨_, exec_regchain s d c, ?_, ?_, ?_, fun p hd hc => ?_, ?_⟩
    · rw [regchain_of_not_full hfull]; simp [State.registered, regEvents, regEvent]
    · simp [hpin]
    · simp [hpin]
    · simp [hpin, hd, hc]
    · rw [regchain_of_not_full hfull]
      simp [State.registered, resBool]
  case encoding =>
    refine ⟨opField_ofFields .., toNat_aField_ofFields _ _ hd, ?_⟩
    rw [encode, wByte0, slice_ofFields_setWidth_low _ _ _ (by decide), BitVec.toNat_ofNat,
      Nat.mod_eq_of_lt hc]

/-- A pin that is an output at the level it was at is, when it was fresh, at an unknown level. -/
theorem State.configured_of_pin {t : State} {p : Pin} (h : t.pin p = ⟨.output, (s.pin p).level⟩) :
    t.pinMode p = .output ∧ t.pinLevel p = s.pinLevel p ∧
      (s.pin p = .untouched → t.pin p = ⟨.output, .unknown⟩) := by
  refine ⟨by rw [State.pinMode, h], by rw [State.pinLevel, h, State.pinLevel], fun hfresh => ?_⟩
  rw [h, hfresh, PinState.untouched]

/-- Settles O18: the three states inside the command, written out, with their pins. -/
theorem clockLevelUnknownDuringRegistration : Obligations.ClockLevelUnknownDuringRegistration := by
  intro cfg d c s hfull hwf
  have hstart : startCommand cfg (.regchain d c) s = s.start (.reg d c 0) := if_neg hfull
  have hwf1 := State.emit_pins_wf (.cfg d) hwf
  have hwf2 := State.emit_pins_wf (.cfg c) hwf1
  have hpin2 : ∀ p, p = d ∨ p = c →
      ((s.emit (.cfg d)).emit (.cfg c)).pin p = ⟨.output, (s.pin p).level⟩ := by
    rintro p hp
    rw [State.pin_emit_cfg hwf1, State.pin_emit_cfg hwf]
    rcases hp with rfl | rfl <;> split_ifs <;> simp_all
  rw [hstart]
  refine ⟨⟨(s.emit (.cfg d)).start (.reg d c 1), rfl, rfl, rfl, ?_⟩,
    ⟨((s.emit (.cfg d)).emit (.cfg c)).start (.reg d c 2), rfl, rfl, by simp, fun p hp => ?_⟩,
    ⟨(((s.emit (.cfg d)).emit (.cfg c)).emit (.set d .low)).start (.reg d c 3), rfl, rfl, by simp, ?_,
      fun hne => ?_⟩⟩
  · have hpin1 : (s.emit (.cfg d)).pin d = ⟨.output, (s.pin d).level⟩ := by
      rw [State.pin_emit_cfg hwf, if_pos rfl]
    exact State.configured_of_pin hpin1
  · exact State.configured_of_pin (hpin2 p hp)
  · exact (State.pin_emit_set hwf2 d).trans (by rw [if_pos rfl, hpin2 d (.inl rfl)])
  · exact State.configured_of_pin
      (((State.pin_emit_set hwf2 c).trans (if_neg hne)).trans (hpin2 c (.inr rfl)))

/-! ## Raising a fault reason -/

/-- What `raise` does, and that the engine goes on. -/
theorem State.raise_effects (s : State) (r : FaultReason) :
    SameButResult s { s.raise r with fault := s.fault } ∧ (s.raise r).res = none ∧
      (s.raise r).seq = .idle ∧ (s.fault = none → (s.raise r).fault = some r) ∧
      (∀ r', s.fault = some r' → (s.raise r).fault = some r') ∧
      step (s.raise r) = accept exec (s.raise r) := by
  refine ⟨⟨⟨rfl, rfl, rfl, fun _ => rfl, rfl⟩, rfl, rfl, rfl⟩, rfl, rfl, fun h => ?_, fun r' h => ?_, rfl⟩
  · rw [State.raise_fault, h]; rfl
  · rw [State.raise_fault, h]; rfl

/-- Settles O33: both an index out of range and an `INVALID` word do nothing but raise. -/
theorem raisingHasNoOtherEffect : Obligations.RaisingHasNoOtherEffect := by
  refine ⟨fun k i s hk hi => ?index, fun w e rest s hidle hin hdec => ?word⟩
  case index =>
    refine ⟨s.raise (.chainIndexOutOfRange k), ?_, s.raise_effects _⟩
    rcases hi with ⟨b, rfl⟩ | ⟨f, rfl⟩ | ⟨l, r, rfl⟩ | ⟨c, rfl⟩
    all_goals exact congrArg Host.Outcome.next (State.withChain_of_le hk)
  case word =>
    exact ⟨_, step_word_of_error hidle hin hdec, State.raise_effects { s with inputs := rest } _⟩

/-! ## A frame write as 36 bit writes -/

theorem run_succ_of_next {n : Nat} {s t : State} (h : step s = .next t) :
    Sys2Proof.core.run (n + 1) s = Sys2Proof.core.run n t := by
  have hcore : Sys2Proof.core.step s = .next t := h
  simp only [Host.Core.run, hcore]

/-- One bare bit write that the host issues. -/
theorem step_wrbit {k : Nat} {ch : Chain} {b : Bool} {rest : List HostInput} (hch : s.reg[k]? = some ch)
    (hidle : s.seq = .idle) (hin : s.inputs = .command (.wrbit k b) :: rest) :
    step s = .next { s.emitAll (bitEvents Config.engine ch b) with
      disp := s.disp.set k none, res := none, inputs := rest } := by
  rw [step_command hidle hin, exec_wrbit, wrbit_of_chain (s := { s with inputs := rest }) hch]
  refine congrArg _ ?_
  ext1 <;> simp [hidle]

/-- A run of bare bit writes to a chain, one or more: the events of all of them, and nothing said of the
module. -/
theorem run_wrbits {k : Nat} {ch : Chain} (b : Bool) (bits : List Bool) (rest : List HostInput) {s : State}
    (hch : s.reg[k]? = some ch) (hidle : s.seq = .idle)
    (hin : s.inputs = (b :: bits).map (fun b => HostInput.command (.wrbit k b)) ++ rest) :
    Sys2Proof.core.run (bits.length + 1) s =
      .next { s.emitAll ((b :: bits).flatMap (bitEvents Config.engine ch)) with
        disp := s.disp.set k none, res := none, inputs := rest } := by
  induction bits generalizing b s with
  | nil =>
    rw [List.length_nil, run_succ_of_next (step_wrbit hch hidle hin), List.flatMap_singleton]
    rfl
  | cons b' bits ih =>
    rw [List.length_cons, run_succ_of_next (step_wrbit hch hidle hin),
      ih b' (by simpa using hch) (by simpa using hidle) rfl]
    refine congrArg _ ?_
    ext1 <;> simp

/-- Settles O46: the 36 bits leave the events of the frame write, and `DISP[k]` as the last bare bit does. -/
theorem wrframeIsThirtySixWrbits : Obligations.WrframeIsThirtySixWrbits := by
  intro k f s rest hk hidle hin
  obtain ⟨ch, hch⟩ := State.exists_chain hk
  have hbits : (List.range 36).map (wire f) = true :: (List.range' 1 35).map (wire f) := rfl
  have hrun := run_wrbits true ((List.range' 1 35).map (wire f)) rest hch hidle
    (by rw [hin, ← hbits, List.map_map]; rfl)
  rw [← hbits, ← frameEvents_eq_flatMap_wire, List.length_map, List.length_range'] at hrun
  refine ⟨_, _, exec_wrframe _ k f, hrun, ?_⟩
  rw [wrframe_of_chain (s := { s with inputs := rest }) hch]
  apply State.ext <;> simp [hidle]

/-! ## What a module is said to show -/

theorem State.registeredPins_congr {t : State} (h : t.reg = s.reg) : t.registeredPins = s.registeredPins := by
  rw [State.registeredPins, h, State.registeredPins]

/-- A state at rest shows `DISP[k]` when its pins are distinct and no fault is marked. -/
theorem State.shown_of_idle (hidle : s.seq = .idle) (k : Nat) :
    s.shown k = if s.registeredPins.Nodup ∧ s.fault = none then s.disp[k]?.join else none := by
  simp [State.shown, State.pinsInUse, hidle, SeqPos.writingTo, State.clean]

/-- While a frame write is under way its module is not shown, and the others as at rest. -/
theorem State.shown_of_frm {k : Nat} {f : SegFrame} {pos : Fin 36} {ph : Fin 4}
    (hseq : s.seq = .frm k f pos ph) (j : Nat) :
    s.shown j = if s.registeredPins.Nodup ∧ s.fault = none ∧ j ≠ k then s.disp[j]?.join else none := by
  simp [State.shown, State.pinsInUse, hseq, SeqPos.writingTo, State.clean, eq_comm]

/-- What is shown of the module after a `WRFRAME`. -/
theorem shown_wrframe {k : Nat} {ch : Chain} (hch : s.reg[k]? = some ch) (hdisp : s.disp.length = s.count)
    (f : SegFrame) : (wrframe cfg k f s).shown k =
      if s.registeredPins.Nodup ∧ s.fault = none then some f else none := by
  have hk : k < s.disp.length := hdisp ▸ (List.getElem?_eq_some_iff.1 hch).1
  rw [wrframe_of_chain hch, State.shown_of_idle rfl, State.registeredPins_congr (s := s) (by simp)]
  simp [hk]

/-- Settles O51: after the last event the engine is at rest with the frame in `DISP[k]`. -/
theorem wrframeIsShown : Obligations.WrframeIsShown := by
  intro k f s hk hdisp
  obtain ⟨ch, hch⟩ := State.exists_chain hk
  refine ⟨_, exec_wrframe s k f, fun hnodup hclean => ?_, fun hshared j => ?_⟩
  · rw [shown_wrframe hch hdisp, if_pos ⟨hnodup, hclean⟩]
  · rw [wrframe_of_chain hch, State.shown_of_idle rfl, State.registeredPins_congr (s := s) (by simp)]
    exact if_neg fun h => hshared h.1

/-- A `WRFRAME` under way, after `n` of its events. -/
theorem ticks_wrframe_under_way {k : Nat} {ch : Chain} (f : SegFrame) (hch : s.reg[k]? = some ch) (n : Nat)
    (hn : n < 144) :
    ∃ v pos ph, ticks cfg n (s.start (.frm k f 0 0)) = .next v ∧ v.seq = .frm k f pos ph ∧
      4 * pos.val + ph.val = n ∧ v.reg = s.reg ∧ v.disp = s.disp ∧ v.fault = s.fault := by
  induction n with
  | zero => exact ⟨_, 0, 0, rfl, rfl, rfl, rfl, rfl, rfl⟩
  | succ n ih =>
    obtain ⟨v, pos, ph, hv, hseq, hpos, hreg, hdisp, hfault⟩ := ih (by omega)
    have htick := (FrameWrite.frm (cfg := cfg) (M := v.msg) k f).tick_eq (hreg ▸ hch) hseq
    have hnext : ticks cfg (n + 1) (s.start (.frm k f 0 0)) =
        .next (tickFrame cfg k ch f pos ph (.frm k f) (·.complete none) v) := by
      rw [ticks_add hv, ticks_succ_of_next htick, ticks_zero]
    rcases tickFrame_cases cfg k ch f pos ph (.frm k f) (·.complete none) v with
      ⟨h, ht⟩ | ⟨rfl, h, ht⟩ | ⟨rfl, rfl, -⟩
    · exact ⟨_, _, _, hnext.trans (congrArg _ ht), rfl, by simp only; omega, hreg, hdisp, hfault⟩
    · refine ⟨_, _, _, hnext.trans (congrArg _ ht), rfl, ?_, hreg, hdisp, hfault⟩
      have : (3 : Fin 4).val = 3 := rfl
      simp only [Fin.val_zero]
      omega
    · have h35 : (35 : Fin 36).val = 35 := rfl
      have h3 : (3 : Fin 4).val = 3 := rfl
      omega

/-- Settles O54: up to the last event the engine is inside the frame write, with `DISP` as it was. -/
theorem writeUnderWayIsNotShown : Obligations.WriteUnderWayIsNotShown := by
  intro cfg k f s hk hidle hdisp
  obtain ⟨ch, hch⟩ := State.exists_chain hk
  have hstart : startCommand cfg (.wrframe k f) s = s.start (.frm k f 0 0) := State.withChain_of_some hch
  rw [hstart]
  refine ⟨fun n hn => ?_, wrframe cfg k f s, ?_, ?_, shown_wrframe hch hdisp f⟩
  · obtain ⟨v, pos, ph, hv, hseq, -, hreg, hdisp', hfault⟩ := ticks_wrframe_under_way (cfg := cfg) f hch n hn
    refine ⟨v, hv, by rw [hseq]; rfl, hdisp', ?_, fun j hj => ?_⟩
    · rw [State.shown_of_frm hseq]; simp
    · rw [State.shown_of_frm hseq, State.shown_of_idle hidle, State.registeredPins_congr hreg, hdisp', hfault]
      simp [hj]
  · rw [wrframe_of_chain hch]
    refine ((FrameWrite.frm (cfg := cfg) (M := s.msg) k f).ticks_eq (s := s.start (.frm k f 0 0))
      (fun _ _ => rfl) hch rfl rfl).trans (congrArg _ ?_)
    ext1 <;> simp
  · rw [wrframe_of_chain hch]; rfl

end Sys2Proof.Machine
end

section
/-! The marquee's cursors and characters in closed form (R102, R104, R105). -/

namespace Sys2Proof.Machine

open Sys2Proof

/-! ## The cursors -/

section Cursors

variable {M : Memory} {m L n j d : Nat}

/-- The message index that digit position `d` of `2 * n` stands at after `j` animation frames (R104). -/
def messageIndex (n j d : Nat) : Int := (j : Int) - ((2 * (n : Int) - 1) - (d : Int))

/-- The cursors after `j` frames are known: no null has been read up to there, or the message's null is at
`m + L` and has been reached. -/
def CursorsKnown (M : Memory) (m L j : Nat) : Prop :=
  (∀ i, i < L → M.read (m + i) ≠ 0#8) ∧ (j < L ∨ M.read (m + L) = 0#8 ∧ L ≠ 0)

theorem cursorsKnown_of_length (hL : M.messageLength m = some L) (hL0 : L ≠ 0) (j : Nat) :
    CursorsKnown M m L j := by
  obtain ⟨hnull, hmsg⟩ := Memory.messageLength_eq_some.1 hL
  exact ⟨hmsg, .inr ⟨hnull, hL0⟩⟩

/-- The two padding tests and the index read are a test on, and are, the message index. -/
theorem cursorsAfter_tests (h : CursorsKnown M m L j) (hd : d < 2 * n) :
    ((d : Int) ≤ (cursorsAfter M m n j).hi ↔ messageIndex n j d < 0) ∧
    ((cursorsAfter M m n j).lo ≤ (d : Int) ↔ L < messageIndex n j d) ∧
    ((cursorsAfter M m n j).cur : Int) + d + 1 - (cursorsAfter M m n j).lo = messageIndex n j d := by
  obtain ⟨hmsg, hj⟩ := h
  unfold messageIndex
  rcases Nat.lt_or_ge j L with hlt | hle
  · rw [cursorsAfter_of_lt hmsg j hlt]
    refine ⟨?_, ?_, ?_⟩
    · simp only
      split_ifs <;> omega
    · simp only; omega
    · simp only; omega
  · obtain ⟨hnull, hL0⟩ := hj.resolve_left (by omega)
    rw [cursorsAfter_of_le hnull hmsg hL0 j hle]
    refine ⟨?_, ?_, ?_⟩
    · simp only
      split_ifs <;> omega
    · simp only; omega
    · simp only; omega

theorem messageIndex_succ (n j d : Nat) :
    (((j + 1 : Nat) : Int) - 1) - ((2 * (n : Int) - 1) - (d : Int)) = messageIndex n j d := by
  rw [messageIndex, Nat.cast_succ, add_sub_cancel_right]

/-- The closed form in terms of the message index. -/
theorem closedChar_succ (M : Memory) (m L n j d : Nat) :
    closedChar M m L n (j + 1) d =
      if 0 ≤ messageIndex n j d ∧ messageIndex n j d < L then M.read (m + (messageIndex n j d).toNat)
      else blank := by
  rw [closedChar, messageIndex_succ]

/-- The cursors show the closed form; the null itself shows as the blank. -/
theorem cursorsAfter_shows (h : CursorsKnown M m L j) (hd : d < 2 * n) :
    (cursorsAfter M m n j).shows M m d = closedChar M m L n (j + 1) d := by
  obtain ⟨hhi, hlo, hcur⟩ := cursorsAfter_tests h hd
  have hindex : messageIndex n j d ≤ j := by unfold messageIndex; omega
  rw [closedChar_succ, Marquee.shows]
  generalize messageIndex n j d = i at *
  by_cases hneg : i < 0
  · rw [if_pos (hhi.2 hneg), if_neg (by omega)]
  · rw [if_neg (hhi.not.2 hneg)]
    by_cases hpast : (L : Int) < i
    · rw [if_pos (hlo.2 hpast), if_neg (by omega)]
    · rw [if_neg (hlo.not.2 hpast), show ((m : Int) + ((cursorsAfter M m n j).cur + d + 1 -
        (cursorsAfter M m n j).lo)).toNat = m + i.toNat by omega]
      by_cases hi : i < L
      · rw [if_pos ⟨by omega, hi⟩]
      · rw [if_neg (by omega), show i.toNat = L by omega]
        exact (h.2.resolve_left (by omega)).1

/-- The frame of R104 for module `k` in animation frame `F`. -/
def closedFrame (cfg : Config) (M : Memory) (m L n F k : Nat) : SegFrame :=
  composeFrame cfg (closedChar M m L n F (2 * k)) (closedChar M m L n F (2 * k + 1))

theorem cursorsAfter_frameFor (cfg : Config) {k : Nat} (h : CursorsKnown M m L j) (hk : k < n) :
    (cursorsAfter M m n j).frameFor cfg M m k = closedFrame cfg M m L n (j + 1) k := by
  rw [Marquee.frameFor, cursorsAfter_shows h (by omega), cursorsAfter_shows h (by omega), closedFrame]

/-- From the frame in which the null is reached `lo` falls by one a frame (R105). -/
theorem cursorsAfter_lo_of_le (hL : M.messageLength m = some L) (hL0 : L ≠ 0) (h : L ≤ j) :
    (cursorsAfter M m n j).lo = 2 * (n : Int) - ((j : Int) - L) := by
  obtain ⟨hnull, hmsg⟩ := Memory.messageLength_eq_some.1 hL
  rw [cursorsAfter_of_le hnull hmsg hL0 j h]

/-- The loop's test holds first after frame `L + 2n + 1` (R105). -/
theorem cursorsAfter_lo_neg_iff (hL : M.messageLength m = some L) (hL0 : L ≠ 0) :
    (cursorsAfter M m n j).lo < 0 ↔ scrollFrames L n ≤ j := by
  unfold scrollFrames
  rcases Nat.lt_or_ge j L with hlt | hle
  · rw [cursorsAfter_of_lt (Memory.messageLength_eq_some.1 hL).2 j hlt]
    simp only
    omega
  · rw [cursorsAfter_lo_of_le hL hL0 hle]
    omega

/-- With no null the exhaustion mark is never set and `lo` never falls (R109). -/
theorem cursorsAfter_of_no_null (h : ∀ i, M.read (m + i) ≠ 0#8) (j : Nat) :
    (cursorsAfter M m n j).ex = false ∧ (cursorsAfter M m n j).lo = 2 * n := by
  rw [cursorsAfter_of_lt (L := j + 1) (fun i _ => h i) j (Nat.lt_succ_self j)]
  exact ⟨rfl, rfl⟩

end Cursors

/-- Settles O37, from what the cursors are after `F - 1` frames. -/
theorem cursorsShowClosedForm : Obligations.CursorsShowClosedForm := by
  intro M m L n F d hL hL0 hF _ hd
  obtain ⟨j, rfl⟩ := Nat.exists_eq_add_of_le' hF
  have hknown := cursorsKnown_of_length hL hL0 j
  simp only [Nat.add_sub_cancel, messageIndex_succ]
  obtain ⟨hhi, hlo, hcur⟩ := cursorsAfter_tests hknown hd
  refine ⟨cursorsAfter_shows hknown hd, hhi, hlo, fun h1 h2 => ⟨hcur, ?_, ?_⟩⟩
  · exact not_lt.1 (hhi.not.1 (not_le.2 h1))
  · exact not_lt.1 (hlo.not.1 (not_le.2 h2))

/-- Past the message the closed form is blank. -/
theorem closedChar_of_le {M : Memory} {m L n F d : Nat} (hF : 1 ≤ F) (h : L ≤ messageIndex n (F - 1) d) :
    closedChar M m L n F d = blank := by
  rw [messageIndex] at h
  exact if_neg (by omega)

/-! ## The animation frames of a `SCROLL`, run -/

/-- The state after the first `j` animation frames of `SCROLL m, t` (R102). -/
def afterFrames (cfg : Config) (m t : Nat) (s : State) : Nat → State
  | 0 => s
  | j + 1 => afterFrame cfg m t (cursorsAfter s.msg m s.count j) (afterFrames cfg m t s j)

section AfterFrames

variable (cfg : Config) (m t : Nat) (s : State) (j : Nat)

@[simp] theorem afterFrames_reg : (afterFrames cfg m t s j).reg = s.reg := by
  induction j with
  | zero => rfl
  | succ j ih => rw [afterFrames, afterFrame_reg, ih]

@[simp] theorem afterFrames_msg : (afterFrames cfg m t s j).msg = s.msg := by
  induction j with
  | zero => rfl
  | succ j ih => rw [afterFrames, afterFrame_msg, ih]

@[simp] theorem afterFrames_fault : (afterFrames cfg m t s j).fault = s.fault := by
  induction j with
  | zero => rfl
  | succ j ih => rw [afterFrames, afterFrame_fault, ih]

@[simp] theorem afterFrames_inputs : (afterFrames cfg m t s j).inputs = s.inputs := by
  induction j with
  | zero => rfl
  | succ j ih => rw [afterFrames, afterFrame_inputs, ih]

@[simp] theorem afterFrames_count : (afterFrames cfg m t s j).count = s.count := by
  rw [State.count, afterFrames_reg, State.count]

@[simp] theorem length_afterFrames_disp : (afterFrames cfg m t s j).disp.length = s.disp.length := by
  induction j with
  | zero => rfl
  | succ j ih => rw [afterFrames, afterFrame_eq]; simpa using ih

end AfterFrames

/-- One round of the loop after `j` animation frames. -/
theorem scrollLoop_afterFrames (cfg : Config) (m t r j : Nat) (s : State) :
    scrollLoop cfg m t (r + 1) (j + 1) (cursorsAfter s.msg m s.count j) (afterFrames cfg m t s j) =
      if (cursorsAfter s.msg m s.count (j + 1)).lo < 0 then (afterFrames cfg m t s (j + 1)).complete none
      else scrollLoop cfg m t r (j + 1 + 1) (cursorsAfter s.msg m s.count (j + 1))
        (afterFrames cfg m t s (j + 1)) := by
  rw [scrollLoop_succ, afterFrames_msg]
  rfl

/-- A `SCROLL` of a message that ends runs the frames that R105 counts. -/
theorem scroll_eq_afterFrames (cfg : Config) {m L : Nat} (t : Nat) {s : State}
    (hL : s.msg.messageLength m = some L) (hL0 : L ≠ 0) :
    scroll cfg m t s = (afterFrames cfg m t s (scrollFrames L s.count)).complete none := by
  have hnull : s.msg.read m ≠ 0#8 := (Memory.messageLength_eq_some.1 hL).2 0 (Nat.pos_of_ne_zero hL0)
  have hloop : ∀ r j, j + (r + 1) = scrollFrames L s.count →
      scrollLoop cfg m t (r + 1) (j + 1) (cursorsAfter s.msg m s.count j) (afterFrames cfg m t s j) =
        (afterFrames cfg m t s (scrollFrames L s.count)).complete none := by
    intro r
    induction r with
    | zero =>
      intro j hj
      rw [scrollLoop_afterFrames, if_pos ((cursorsAfter_lo_neg_iff hL hL0).2 hj.ge), ← hj]
    | succ r ih =>
      intro j hj
      rw [scrollLoop_afterFrames, if_neg ((cursorsAfter_lo_neg_iff hL hL0).not.2 (by omega))]
      exact ih (j + 1) (by omega)
  rw [scroll_of_length hL hnull]
  exact hloop (L + 2 * s.count) 0 (Nat.zero_add _)

/-! ## The events of an animation frame in closed form -/

section Events

variable {cfg : Config} {R : List Chain} {M : Memory} {m t L : Nat}

theorem moduleEvents_succ {k : Nat} {q : Marquee} {ch : Chain} (h : R[k]? = some ch) :
    moduleEvents cfg R M m q (k + 1) =
      frameEvents cfg ch (q.frameFor cfg M m k) ++ moduleEvents cfg R M m q k := by
  rw [moduleEvents, h]

/-- The writes in descending order, when `g k` is the write to module `k`. -/
theorem moduleEvents_eq_flatMap {q : Marquee} {n : Nat} {g : Nat → List Event}
    (hg : ∀ k < n, moduleEvents cfg R M m q (k + 1) = g k ++ moduleEvents cfg R M m q k) :
    moduleEvents cfg R M m q n = (List.range n).reverse.flatMap g := by
  induction n with
  | zero => rfl
  | succ n ih =>
    rw [hg n (Nat.lt_succ_self n), ih fun k hk => hg k (by omega), List.range_succ, List.reverse_append]
    rfl

/-- An animation frame emits what the closed form says. -/
theorem closedFrameEvents_eq {j : Nat} (h : CursorsKnown M m L j) :
    closedFrameEvents cfg R M m t L (j + 1) =
      moduleEvents cfg R M m (cursorsAfter M m R.length j) R.length ++ [.dlyMs t] := by
  rw [closedFrameEvents]
  refine congrArg (· ++ _) (moduleEvents_eq_flatMap fun k hk => ?_).symm
  rw [moduleEvents_succ (List.getElem?_eq_getElem hk), List.getElem?_eq_getElem hk,
    cursorsAfter_frameFor cfg h hk, closedFrame]

/-- Two runs of events one after the other, whatever they make of `DISP`. -/
theorem State.emitAll_trans {s u : State} {es es' : List Event} {D D' : List (Option SegFrame)}
    (h : u = { s.emitAll es with disp := D' }) :
    { u.emitAll es' with disp := D } = { s.emitAll (es ++ es') with disp := D } := by
  subst h
  ext1 <;> simp

/-- The first `J` animation frames emit what the closed form says. -/
theorem afterFrames_eq {s : State} (J : Nat) (h : ∀ j < J, CursorsKnown s.msg m L j) :
    afterFrames cfg m t s J =
      { s.emitAll ((List.range J).flatMap fun j => closedFrameEvents cfg s.reg s.msg m t L (j + 1)) with
        disp := (afterFrames cfg m t s J).disp } := by
  induction J with
  | zero => rfl
  | succ J ih =>
    have hlast : afterFrames cfg m t s (J + 1) =
        { (afterFrames cfg m t s J).emitAll (closedFrameEvents cfg s.reg s.msg m t L (J + 1)) with
          disp := (afterFrames cfg m t s (J + 1)).disp } := by
      rw [closedFrameEvents_eq (h J (Nat.lt_succ_self J)), afterFrames, afterFrame_eq]
      simp only [afterFrames_reg, afterFrames_msg, afterFrames_count]
      rfl
    rw [List.range_succ, List.flatMap_append, List.flatMap_singleton,
      ← State.emitAll_trans (ih fun j hj => h j (by omega))]
    exact hlast

end Events

end Sys2Proof.Machine
end

section
/-! `SCROLL` (R102 to R109): its events, what it leaves at the pins and in `DISP`, and its endless run. -/

namespace Sys2Proof.Machine

open Sys2Proof

/-! ## Adding up over a closed form -/

section Sums

variable {μ : List Event → Nat} (hμ : EventSum μ) {cfg : Config} {a : Nat}
  (hframe : ∀ ch f, μ (frameEvents cfg ch f) = a)

include hμ hframe

theorem EventSum.sum_closedFrameEvents (R : List Chain) (M : Memory) (m t L F : Nat) :
    μ (closedFrameEvents cfg R M m t L F) = R.length * a + μ [.dlyMs t] := by
  rw [closedFrameEvents, hμ.append, hμ.sum_flatMap (n := a), List.length_reverse, List.length_range]
  intro k hk
  rw [List.getElem?_eq_getElem (by simpa using hk)]
  exact hframe _ _

theorem EventSum.sum_closedScrollEvents (R : List Chain) (M : Memory) (m t L : Nat) :
    μ (closedScrollEvents cfg R M m t L) =
      (L + 2 * R.length + 1) * (R.length * a + μ [.dlyMs t]) := by
  rw [closedScrollEvents, hμ.sum_flatMap fun j _ => hμ.sum_closedFrameEvents hframe R M m t L (j + 1),
    List.length_range, scrollFrames]

end Sums

theorem length_closedScrollEvents (cfg : Config) (R : List Chain) (M : Memory) (m t L : Nat) :
    (closedScrollEvents cfg R M m t L).length = (L + 2 * R.length + 1) * (144 * R.length + 1) := by
  rw [eventSum_length.sum_closedScrollEvents (a := 144) (fun ch f => length_frameEvents cfg ch f),
    Nat.mul_comm R.length]
  rfl

theorem count_dlyMs_closedScrollEvents (cfg : Config) (R : List Chain) (M : Memory) (m t L : Nat) :
    (closedScrollEvents cfg R M m t L).count (.dlyMs t) = L + 2 * R.length + 1 := by
  rw [(eventSum_count _).sum_closedScrollEvents (a := 0) fun ch f => count_dlyMs_frameEvents cfg ch f t]
  simp

/-! ## The pins after frame writes -/

/-- Between `s` and `u` there were frame writes to chains of `R` and delays: no mode has moved, no other pin, and a
pin that was low is low. -/
structure State.FramesWritten (R : List Chain) (s u : State) : Prop where
  wf : sparseWf PinState.untouched u.pins = true
  mode : ∀ p, u.pinMode p = s.pinMode p
  other : ∀ p, (∀ ch ∈ R, p ≠ ch.data ∧ p ≠ ch.clock) → u.pin p = s.pin p
  low : ∀ p, s.pinLevel p = .driven .low → u.pinLevel p = .driven .low

/-- Both pins of the chain are low. -/
def State.BothLow (s : State) (ch : Chain) : Prop :=
  s.pinLevel ch.data = .driven .low ∧ s.pinLevel ch.clock = .driven .low

section FramesWritten

variable {R : List Chain} {s u v : State} {cfg : Config}

theorem State.FramesWritten.refl (hwf : sparseWf PinState.untouched s.pins = true) :
    s.FramesWritten R s := ⟨hwf, fun _ => rfl, fun _ _ => rfl, fun _ h => h⟩

theorem State.FramesWritten.trans (h : s.FramesWritten R u) (h' : u.FramesWritten R v) :
    s.FramesWritten R v :=
  ⟨h'.wf, fun p => (h'.mode p).trans (h.mode p), fun p hp => (h'.other p hp).trans (h.other p hp),
    fun p hp => h'.low p (h.low p hp)⟩

theorem State.FramesWritten.bothLow (h : s.FramesWritten R u) {ch : Chain} (hlow : s.BothLow ch) :
    u.BothLow ch := ⟨h.low _ hlow.1, h.low _ hlow.2⟩

theorem State.pin_congr (h : v.pins = u.pins) : v.pin = u.pin := by
  funext p; rw [State.pin, h, State.pin]

theorem State.FramesWritten.of_pins (h : s.FramesWritten R u) (hpins : v.pins = u.pins) :
    s.FramesWritten R v := by
  have hpin := State.pin_congr hpins
  refine ⟨hpins ▸ h.wf, fun p => ?_, fun p hp => ?_, fun p hp => ?_⟩
  · rw [State.pinMode, hpin]; exact h.mode p
  · rw [hpin]; exact h.other p hp
  · rw [State.pinLevel, hpin]; exact h.low p hp

theorem State.BothLow.of_pins {ch : Chain} (h : u.BothLow ch) (hpins : v.pins = u.pins) : v.BothLow ch := by
  rw [State.BothLow, State.pinLevel, State.pinLevel, State.pin_congr hpins]
  exact h

/-- A frame write leaves both pins of its chain low. -/
theorem State.framesWritten_frameEvents (hwf : sparseWf PinState.untouched s.pins = true) {ch : Chain}
    (hch : ch ∈ R) (f : SegFrame) :
    s.FramesWritten R (s.emitAll (frameEvents cfg ch f)) ∧ (s.emitAll (frameEvents cfg ch f)).BothLow ch := by
  have hpin := State.pin_emitAll_frameEvents (cfg := cfg) (ch := ch) hwf f
  refine ⟨⟨State.emitAll_pins_wf _ hwf, State.pinMode_of_pinAfterBit hpin, fun p hp => ?_, fun p hp => ?_⟩,
    ?_, State.pinLevel_clock_of_pinAfterBit hpin⟩
  · exact State.samePinsBut_of_pinAfterBit hpin p (hp ch hch).1 (hp ch hch).2
  · rw [State.pinLevel, hpin, State.pinAfterBit]
    split_ifs <;> [rfl; rfl; exact hp]
  · rw [State.pinLevel, hpin, State.pinAfterBit_false_data]

/-- A delay touches no pin. -/
theorem State.framesWritten_dlyMs (hwf : sparseWf PinState.untouched s.pins = true) (n : Nat) :
    s.FramesWritten R (s.emitAll [.dlyMs n]) := ⟨hwf, fun _ => rfl, fun _ _ => rfl, fun _ h => h⟩

/-- The writes of an animation frame leave the pins of every module written low. -/
theorem State.framesWritten_moduleEvents (hwf : sparseWf PinState.untouched s.pins = true) (M : Memory)
    (m : Nat) (q : Marquee) {n : Nat} (hn : n ≤ R.length) :
    s.FramesWritten R (s.emitAll (moduleEvents cfg R M m q n)) ∧
      ∀ k < n, ∀ ch, R[k]? = some ch → (s.emitAll (moduleEvents cfg R M m q n)).BothLow ch := by
  induction n generalizing s with
  | zero => exact ⟨.refl hwf, fun k hk => absurd hk (Nat.not_lt_zero k)⟩
  | succ n ih =>
    have hch := List.getElem?_eq_getElem (show n < R.length by omega)
    rw [moduleEvents_succ hch, State.emitAll_append]
    obtain ⟨hwrite, hlow⟩ := State.framesWritten_frameEvents (cfg := cfg) hwf
      (List.mem_of_getElem? hch) (q.frameFor cfg M m n)
    obtain ⟨hrest, hbelow⟩ := ih hwrite.wf (by omega)
    refine ⟨hwrite.trans hrest, fun k hk ch hk' => ?_⟩
    rcases Nat.lt_succ_iff_lt_or_eq.1 hk with hlt | rfl
    · exact hbelow k hlt ch hk'
    · rw [hch] at hk'
      exact Option.some.inj hk' ▸ hrest.bothLow hlow

/-- One or more animation frames leave every registered pin low. -/
theorem framesWritten_afterFrames (cfg : Config) (m t : Nat)
    (hwf : sparseWf PinState.untouched s.pins = true) (J : Nat) :
    s.FramesWritten s.reg (afterFrames cfg m t s J) ∧
      (0 < J → ∀ ch ∈ s.reg, (afterFrames cfg m t s J).BothLow ch) := by
  induction J with
  | zero => exact ⟨.refl hwf, fun h => absurd h (Nat.lt_irrefl 0)⟩
  | succ J ih =>
    obtain ⟨hbefore, -⟩ := ih
    obtain ⟨hmodules, hlow⟩ := State.framesWritten_moduleEvents (R := s.reg) (cfg := cfg) hbefore.wf s.msg m
      (cursorsAfter s.msg m s.count J) (Nat.le_refl _)
    have hdelay := State.framesWritten_dlyMs (R := s.reg) hmodules.wf t
    have hpins : (afterFrames cfg m t s (J + 1)).pins = ((afterFrames cfg m t s J).emitAll
        (moduleEvents cfg s.reg s.msg m (cursorsAfter s.msg m s.count J) s.reg.length ++ [.dlyMs t])).pins := by
      rw [afterFrames, afterFrame_eq]; simp [State.count]
    rw [State.emitAll_append] at hpins
    refine ⟨(hbefore.trans (hmodules.trans hdelay)).of_pins hpins, fun _ ch hch => ?_⟩
    obtain ⟨k, hk⟩ := List.getElem?_of_mem hch
    exact (hdelay.bothLow (hlow k (List.getElem?_eq_some_iff.1 hk).1 ch hk)).of_pins hpins

end FramesWritten

/-! ## A `SCROLL` of a message that ends -/

section Ends

variable {cfg : Config} {m L : Nat} {s : State}

theorem composeFrame_blank (cfg : Config) : composeFrame cfg blank blank = 0#32 := by
  rw [composeFrame, charMask_zero]
  rfl

/-- Writing one frame to every module leaves that frame in each entry of `DISP`. -/
theorem moduleDisp_const {R : List Chain} {M : Memory} {q : Marquee} {f : SegFrame} {n : Nat}
    (h : ∀ k < n, q.frameFor cfg M m k = f) (hn : n ≤ R.length) {D : List (Option SegFrame)}
    (hD : n ≤ D.length) : moduleDisp cfg R M m q n D = List.replicate n (some f) ++ D.drop n := by
  induction n generalizing D with
  | zero => rfl
  | succ n ih =>
    have hdrop : (D.set n (some f)).drop n = some f :: D.drop (n + 1) := by
      rw [List.drop_eq_getElem_cons (by simpa using hD), List.getElem_set_self, List.drop_set_of_lt (by omega)]
    rw [moduleDisp, if_pos (by omega), h n (Nat.lt_succ_self n), ih (fun k hk => h k (by omega)) (by omega)
      (by rw [List.length_set]; omega), hdrop, List.replicate_succ', List.append_assoc]
    rfl

/-- The events of a `SCROLL` are those of the closed form. -/
theorem afterFrames_scrollFrames (t : Nat) (hL : s.msg.messageLength m = some L) (hL0 : L ≠ 0) :
    afterFrames cfg m t s (scrollFrames L s.count) =
      { s.emitAll (closedScrollEvents cfg s.reg s.msg m t L) with
        disp := (afterFrames cfg m t s (scrollFrames L s.count)).disp } :=
  afterFrames_eq _ fun j _ => cursorsKnown_of_length hL hL0 j

/-- The last animation frame shows blanks, so every module ends blank (R105). -/
theorem afterFrames_disp (t : Nat) (hL : s.msg.messageLength m = some L) (hL0 : L ≠ 0)
    (hdisp : s.disp.length = s.count) :
    (afterFrames cfg m t s (scrollFrames L s.count)).disp = List.replicate s.count (some 0#32) := by
  have hlen : (afterFrames cfg m t s (L + 2 * s.count)).disp.length = s.count := by
    rw [length_afterFrames_disp, hdisp]
  have hblank : ∀ k < s.count, (cursorsAfter s.msg m s.count (L + 2 * s.count)).frameFor cfg s.msg m k =
      0#32 := fun k hk => by
    rw [cursorsAfter_frameFor cfg (cursorsKnown_of_length hL hL0 _) hk, closedFrame,
      closedChar_of_le (by omega) (by rw [messageIndex]; omega),
      closedChar_of_le (by omega) (by rw [messageIndex]; omega), composeFrame_blank]
  rw [scrollFrames, afterFrames, afterFrame_eq]
  simp only [afterFrames_reg, afterFrames_msg, afterFrames_count]
  rw [moduleDisp_const hblank (Nat.le_refl _) hlen.ge, List.drop_eq_nil_of_le hlen.le, List.append_nil]

end Ends

/-- Settles O36: the loop runs the frames that R105 counts, each with the events of the closed form, and the
last one shows blanks. -/
theorem scrollEmitsClosedForm : Obligations.ScrollEmitsClosedForm := by
  intro m t L s hL hL0 hdisp
  have hstate := scroll_eq_afterFrames Config.engine t hL hL0
  have hevents := afterFrames_scrollFrames (cfg := Config.engine) t hL hL0
  have htrace : (scroll Config.engine m t s).trace =
      s.trace ++ closedScrollEvents Config.engine s.reg s.msg m t L := by
    rw [hstate, hevents]; simp
  have hpins : (scroll Config.engine m t s).pins =
      (closedScrollEvents Config.engine s.reg s.msg m t L).foldl applyEvent s.pins := by
    rw [hstate, hevents]; simp
  refine ⟨_, exec_scroll s m t, htrace, ?_, hpins, fun hwf => ?_, ?_, ?_, ?_, ?_⟩
  · rw [htrace, List.length_append, length_closedScrollEvents]; rfl
  · obtain ⟨hwritten, hlow⟩ := framesWritten_afterFrames Config.engine m t hwf (scrollFrames L s.count)
    rw [hstate]
    refine ⟨hwritten.mode, hlow (Nat.succ_pos _), fun p hp => hwritten.other p fun ch hch => ?_⟩
    simp only [State.registeredPins, List.mem_flatMap, List.mem_cons, List.not_mem_nil, or_false] at hp
    exact ⟨fun h => hp ⟨ch, hch, .inl h⟩, fun h => hp ⟨ch, hch, .inr h⟩⟩
  · rw [hstate]; exact afterFrames_disp t hL hL0 hdisp
  · rw [hstate]; rfl
  · rw [hstate]; rfl
  · rw [hstate]; simp [SameButOutputs]

/-- The events of a `SCROLL` of a message that ends, and where it leaves `SEQ`. -/
theorem scroll_trace {cfg : Config} {m L : Nat} (t : Nat) {s : State}
    (hL : s.msg.messageLength m = some L) (hL0 : L ≠ 0) :
    (scroll cfg m t s).trace = s.trace ++ closedScrollEvents cfg s.reg s.msg m t L := by
  rw [scroll_eq_afterFrames cfg t hL hL0, afterFrames_scrollFrames t hL hL0]; simp

/-- Settles O38: one delay a frame, and the cursors in closed form. -/
theorem scrollFrameCount : Obligations.ScrollFrameCount := by
  have hcount : ∀ (m t L : Nat) (s : State), s.msg.messageLength m = some L → L ≠ 0 →
      ∃ u es, exec (.scroll m t) s = .next u ∧ u.seq = .idle ∧ u.trace = s.trace ++ es ∧
        es.count (.dlyMs t) = L + 2 * s.count + 1 := fun m t L s hL hL0 =>
    ⟨_, _, exec_scroll s m t, by rw [scroll_eq_afterFrames _ t hL hL0]; rfl, scroll_trace t hL hL0,
      count_dlyMs_closedScrollEvents ..⟩
  refine ⟨hcount, fun M m L n j hL hL0 => ⟨fun hj => ?before, fun hj _ => cursorsAfter_lo_of_le hL hL0 hj⟩,
    fun M m L n d hL hL0 hd => ⟨?secondLast, ?last⟩, fun s m t hL hone => ?scenario⟩
  case before =>
    obtain ⟨hnull, hmsg⟩ := Memory.messageLength_eq_some.1 hL
    rcases Nat.lt_or_eq_of_le hj with hlt | rfl
    · rw [cursorsAfter_of_lt hmsg j hlt]
      simp [hlt.ne]
    · rw [cursorsAfter_of_le hnull hmsg hL0 j (Nat.le_refl j)]
      simp
  case secondLast =>
    rw [cursorsAfter_shows (cursorsKnown_of_length hL hL0 _) hd]
    exact closedChar_of_le (by omega) (by rw [messageIndex]; omega)
  case last =>
    rw [cursorsAfter_shows (cursorsKnown_of_length hL hL0 _) hd]
    exact closedChar_of_le (by omega) (by rw [messageIndex]; omega)
  case scenario =>
    obtain ⟨u, es, hu, -, htrace, hes⟩ := hcount m t 2 s hL (by decide)
    exact ⟨u, es, hu, htrace, by rw [hes, hone]⟩

/-- With no chain registered an animation frame is its delay (R108). -/
theorem afterFrames_of_no_chain (cfg : Config) (m t : Nat) {s : State} (h : s.reg = []) (J : Nat) :
    afterFrames cfg m t s J = { s with trace := s.trace ++ List.replicate J (.dlyMs t) } := by
  have hcount : s.count = 0 := by rw [State.count, h]; rfl
  induction J with
  | zero => simp [afterFrames]
  | succ J ih =>
    rw [afterFrames, afterFrame, afterFrames_count, hcount, writeModules, ih, List.replicate_succ',
      ← List.append_assoc]
    rfl

/-- Settles O39: `L + 1` frames, each its delay alone. -/
theorem scrollWithoutChains : Obligations.ScrollWithoutChains := by
  intro m t L s hL hL0 hreg
  have hcount : s.count = 0 := by rw [State.count, hreg]; rfl
  refine ⟨by rw [hcount]; rfl, by rw [hcount]; rfl, ?_⟩
  rw [exec_scroll, scroll_eq_afterFrames _ t hL hL0, afterFrames_of_no_chain _ m t hreg, hcount]
  rfl

/-! ## What a `SCROLL` reads -/

section Reads

variable {cfg : Config} {R : List Chain} {M M' : Memory} {m : Nat} {q q' : Marquee} {n : Nat}
  (h : ∀ k < n, q.frameFor cfg M m k = q'.frameFor cfg M' m k)

include h

/-- Host memory and cursors reach an animation frame's events through its frames alone. -/
theorem moduleEvents_congr : moduleEvents cfg R M m q n = moduleEvents cfg R M' m q' n := by
  induction n with
  | zero => rfl
  | succ n ih =>
    rw [moduleEvents, moduleEvents, h n (Nat.lt_succ_self n), ih fun k hk => h k (by omega)]

theorem moduleDisp_congr (D : List (Option SegFrame)) :
    moduleDisp cfg R M m q n D = moduleDisp cfg R M' m q' n D := by
  induction n generalizing D with
  | zero => rfl
  | succ n ih =>
    rw [moduleDisp, moduleDisp, h n (Nat.lt_succ_self n), ih fun k hk => h k (by omega)]

end Reads

/-- Two host memories that agree up to the message's null show the same characters. -/
theorem closedChar_congr {M M' : Memory} {m L : Nat} (h : ∀ i, i ≤ L → M'.read (m + i) = M.read (m + i))
    (n F d : Nat) : closedChar M' m L n F d = closedChar M m L n F d := by
  unfold closedChar
  simp only
  split_ifs
  · exact h _ (by omega)
  · rfl

/-- The animation frames depend on host memory only up to the message's null. -/
theorem afterFrames_msg_congr {cfg : Config} {m L : Nat} (t : Nat) {s : State} {M : Memory}
    (hL : s.msg.messageLength m = some L) (hL' : M.messageLength m = some L) (hL0 : L ≠ 0)
    (h : ∀ i, i ≤ L → M.read (m + i) = s.msg.read (m + i)) (J : Nat) :
    afterFrames cfg m t { s with msg := M } J = { afterFrames cfg m t s J with msg := M } := by
  induction J with
  | zero => rfl
  | succ J ih =>
    have hframes : ∀ k < s.count, (cursorsAfter M m s.count J).frameFor cfg M m k =
        (cursorsAfter s.msg m s.count J).frameFor cfg s.msg m k := fun k hk => by
      rw [cursorsAfter_frameFor cfg (cursorsKnown_of_length hL' hL0 J) hk,
        cursorsAfter_frameFor cfg (cursorsKnown_of_length hL hL0 J) hk, closedFrame, closedFrame,
        closedChar_congr h, closedChar_congr h]
    have hevents := moduleEvents_congr (R := s.reg) hframes
    have hdisp := moduleDisp_congr (R := s.reg) hframes
    rw [State.count] at hevents hdisp
    rw [afterFrames, ih, afterFrames, afterFrame_eq, afterFrame_eq]
    ext1 <;> simp [State.count, hevents, hdisp]

/-- Settles O40: the closed form looks no further than the null. -/
theorem scrollReadsOnlyTheMessage : Obligations.ScrollReadsOnlyTheMessage := by
  intro m t L s M hL h
  obtain ⟨hnull, hmsg⟩ := Memory.messageLength_eq_some.1 hL
  refine ⟨_, _, exec_scroll s m t, exec_scroll _ m t, ?_⟩
  by_cases hL0 : L = 0
  · subst hL0
    have hread : s.msg.read m = 0#8 := hnull
    have hread' : M.read m = 0#8 := (h 0 (Nat.le_refl 0)).trans hread
    rw [scroll_of_null hread, scroll_of_null (s := { s with msg := M }) hread']
    rfl
  · have hL' : M.messageLength m = some L :=
      Memory.messageLength_eq_some.2 ⟨(h L (Nat.le_refl L)).trans hnull, fun i hi => h i hi.le ▸ hmsg i hi⟩
    rw [scroll_eq_afterFrames _ t hL hL0, scroll_eq_afterFrames (s := { s with msg := M }) _ t hL' hL0]
    exact congrArg (State.complete · none) (afterFrames_msg_congr t hL hL' hL0 h _)

/-! ## A `SCROLL` that never ends -/

/-- The `SCROLL` of the message at `m` that was issued in state `s` is under way in `v`. -/
structure ScrollUnderWay (m t : Nat) (s v : State) : Prop where
  seqOk : v.SeqOk Config.engine
  seq : ∃ q frame place, v.seq = .scr m t q frame place
  res : v.res = none
  kept : SameButOutputs s v

theorem SameButOutputs.of_emits {s v w : State} {e : Event} (h : SameButOutputs s v) (he : v.Emits e w)
    (hreg : w.reg = v.reg) : SameButOutputs s w := by
  obtain ⟨h1, h2, h3, h4, h5⟩ := h
  exact ⟨hreg.trans h1, he.fault.trans h2, he.msg.trans h3, fun a => by rw [he.msg, h4], he.inputs.trans h5⟩

/-- The first position of an animation frame is one of the `SCROLL`. -/
theorem State.scrollFrameStart_eq_scr (s : State) (m t : Nat) (q : Marquee) (frame : Nat) :
    ∃ q' place, s.scrollFrameStart m t q frame = .scr m t q' frame place := by
  unfold State.scrollFrameStart
  split <;> exact ⟨_, _, rfl⟩

/-- A tick of a frame write of a `SCROLL` stays in the `SCROLL` and does not touch `RES`. -/
theorem tickFrame_scr (cfg : Config) (k : Nat) (ch : Chain) (f : SegFrame) (pos : Fin 36) (ph : Fin 4)
    (m t : Nat) (q : Marquee) (frame : Nat) (s : State) :
    ∃ q' place r, tickFrame cfg k ch f pos ph (fun pos ph => .scr m t q frame (.write k pos ph))
        (afterModule m t q frame k) s = r ∧ r.seq = .scr m t q' frame place ∧ r.res = s.res := by
  rcases tickFrame_cases cfg k ch f pos ph (fun pos ph => .scr m t q frame (.write k pos ph))
    (afterModule m t q frame k) s with ⟨_, h⟩ | ⟨-, _, h⟩ | ⟨-, -, h⟩
  · exact ⟨_, _, _, h, rfl, rfl⟩
  · exact ⟨_, _, _, h, rfl, rfl⟩
  · cases k <;> exact ⟨_, _, _, h, rfl, rfl⟩

section Endless

variable {m t : Nat} {s v : State}

theorem ScrollUnderWay.busy (h : ScrollUnderWay m t s v) : v.seq ≠ .idle := by
  obtain ⟨q, frame, place, hseq⟩ := h.seq
  rw [hseq]
  exact fun h => nomatch h

variable (hmsg : ∀ i, s.msg.read (m + i) ≠ 0#8)

include hmsg

/-- With no null each tick of it emits an event and leaves it under way. -/
theorem ScrollUnderWay.exists_tick (h : ScrollUnderWay m t s v) :
    ∃ w, tick Config.engine v = .next w ∧ ScrollUnderWay m t s w ∧
      w.trace.length = v.trace.length + 1 := by
  obtain ⟨hok, ⟨q, frame, place, hseq⟩, hres, hkept⟩ := h
  have hlength : ∀ {e w}, v.Emits e w → w.trace.length = v.trace.length + 1 := fun he => by
    rw [he.trace, List.length_append]; rfl
  cases place with
  | write k pos ph =>
    have hw := FrameWrite.scr (cfg := Config.engine) (M := v.msg) m t q frame k
    have hk : k < v.count := by rw [State.SeqOk, hseq] at hok; exact hok.1
    obtain ⟨ch, hch⟩ := State.exists_chain hk
    obtain ⟨hemits, hreg, -⟩ := hw.tickFrame_emits (s := v) (ch := ch) pos ph
    obtain ⟨q', place, _, rfl, hseq', hres'⟩ := tickFrame_scr Config.engine k ch
      (q.frameFor Config.engine v.msg m k) pos ph m t q frame v
    exact ⟨_, hw.tick_eq hch hseq, ⟨hw.seqOk_tickFrame hok hseq ch, ⟨q', frame, place, hseq'⟩,
      hres'.trans hres, hkept.of_emits hemits hreg⟩, hlength hemits⟩
  | delay =>
    obtain ⟨hemits, hreg, -⟩ := tickScrollDelay_emits (s := v) m t q frame
    have hok' := (hok.tickScrollDelay hseq).1
    have hlo : ¬ q.lo < 0 := by
      rw [State.SeqOk, hseq] at hok
      obtain ⟨-, rfl⟩ := hok
      obtain ⟨-, -, hkeptMsg, -⟩ := hkept
      rw [hkeptMsg, (cursorsAfter_of_no_null hmsg frame).2]
      omega
    obtain ⟨q', place, hstart⟩ := (v.emit (.dlyMs t)).scrollFrameStart_eq_scr m t q (frame + 1)
    have hnext : tickScrollDelay m t q frame v =
        (v.emit (.dlyMs t)).goTo ((v.emit (.dlyMs t)).scrollFrameStart m t q (frame + 1)) := if_neg hlo
    refine ⟨tickScrollDelay m t q frame v, by rw [tick, hseq], ⟨hok', ⟨q', frame + 1, place, ?_⟩, ?_,
      hkept.of_emits hemits hreg⟩, hlength hemits⟩
    · rw [hnext, State.goTo_seq, hstart]
    · rw [hnext]; exact hres

/-- Any number of steps of it: one event each, as at the grain of events. -/
theorem ScrollUnderWay.exists_run (h : ScrollUnderWay m t s v) (n : Nat) :
    ∃ w, Sys2Proof.core.run n v = .next w ∧ ticks Config.engine n v = .next w ∧
      ScrollUnderWay m t s w ∧ w.trace.length = v.trace.length + n := by
  induction n generalizing v with
  | zero => exact ⟨v, rfl, rfl, h, rfl⟩
  | succ n ih =>
    obtain ⟨u, htick, hu, hlen⟩ := h.exists_tick hmsg
    obtain ⟨w, hrun, hticks, hw, hlen'⟩ := ih hu
    exact ⟨w, (run_succ_of_next ((step_of_busy h.busy).trans htick)).trans hrun,
      (ticks_succ_of_next htick).trans hticks, hw, by omega⟩

/-- Animation frames of an endless `SCROLL`, one after another. -/
theorem ticks_endless_frames (cfg : Config) (F : Nat) :
    ticks cfg (F * (144 * s.count + 1)) (s.start (s.scrollFrameStart m t (Marquee.init s.count) 1)) =
      .next ((afterFrames cfg m t s F).start ((afterFrames cfg m t s F).scrollFrameStart m t
        (cursorsAfter s.msg m s.count F) (F + 1))) := by
  induction F with
  | zero => rw [Nat.zero_mul]; rfl
  | succ F ih =>
    have hframe := ticks_frameStart cfg m t (F + 1) (cursorsAfter s.msg m s.count F) (afterFrames cfg m t s F)
    rw [afterFrames_count, afterFrames_msg] at hframe
    rw [Nat.succ_mul, ticks_add ih, hframe]
    refine congrArg _ (if_neg ?_)
    change ¬ (cursorsAfter s.msg m s.count (F + 1)).lo < 0
    rw [(cursorsAfter_of_no_null hmsg (F + 1)).2]
    omega

end Endless

/-- Settles O41: the command stays under way, and after `F` frames it has emitted what the closed form says of
the `F` characters it has reached. -/
theorem unterminatedScrollNeverEnds : Obligations.UnterminatedScrollNeverEnds := by
  intro m t s hmsg
  have hstate : scroll Config.engine m t s =
      s.start (s.scrollFrameStart m t (Marquee.init s.count) 1) := by
    rw [scroll_of_no_length (Memory.messageLength_eq_none.2 hmsg) (hmsg 0)]
    rfl
  obtain ⟨q, place, hscr⟩ := s.scrollFrameStart_eq_scr m t (Marquee.init s.count) 1
  have hunder : ScrollUnderWay m t s (scroll Config.engine m t s) := by
    rw [hstate]
    refine ⟨?_, ⟨q, 1, place, hscr⟩, rfl, rfl, rfl, rfl, fun _ => rfl, rfl⟩
    exact (State.seqOk_of_scrollFrameStart (m := m) (d := t) (frame := 1)
      (s := s.start (s.scrollFrameStart m t (Marquee.init s.count) 1))
      ⟨hmsg 0, Nat.le_refl 1, by simp [cursorsAfter]⟩ rfl).1
  have htrace : (scroll Config.engine m t s).trace = s.trace := by rw [hstate]; rfl
  refine ⟨cursorsAfter_of_no_null hmsg, _, exec_scroll s m t, htrace, fun n => ?_, fun F => ?_⟩
  · obtain ⟨w, hrun, -, hw, hlen⟩ := hunder.exists_run hmsg n
    exact ⟨w, hrun, hw.busy, hw.res, by rw [hlen, htrace], hw.kept⟩
  · obtain ⟨w, hrun, hticks, -, -⟩ := hunder.exists_run hmsg (F * (144 * s.count + 1))
    rw [hstate, ticks_endless_frames hmsg] at hticks
    refine ⟨w, hrun, ?_⟩
    rw [← Host.Outcome.next.inj hticks, State.start_trace,
      afterFrames_eq (L := F) F fun j hj => ⟨fun i _ => hmsg i, .inl hj⟩]
    simp

end Sys2Proof.Machine
end

section
/-! `DTEST` (R112, R113) and the nominal delays of every command (R156). -/

namespace Sys2Proof.Machine

open Sys2Proof

/-! ## The codes of a sweep -/

section Codes

variable {cfg : Config} {c j : Nat}

theorem fontMax_toNat_le (cfg : Config) : cfg.fontMax.toNat ≤ 0x7E := by
  simpa using BitVec.le_def.1 cfg.fontMax_le

theorem toNat_sweepChar (h : c < 256) : (sweepChar c).toNat = c := by
  rw [sweepChar, BitVec.toNat_ofNat, Nat.mod_eq_of_lt h]

/-- A sweep takes a step for each of `c`, `c + 2`, ... up to `FONT_MAX` (R113(a)). -/
theorem lt_sweepSteps_iff : j < sweepSteps cfg c ↔ c + 2 * j ≤ cfg.fontMax.toNat := by
  rw [sweepSteps]
  split_ifs <;> omega

/-- Folding never raises a code. -/
theorem foldCase_le (c : CharCode) : foldCase c ≤ c := by
  revert c
  decide

theorem charMask_of_lt_fontMin {c : CharCode} (h : c < cfg.fontMin) : charMask cfg c = 0#16 :=
  charMask_blank (.inl (Nat.lt_of_le_of_lt (BitVec.le_def.1 (foldCase_le c)) h))

/-- The code past `FONT_MAX` is blank, unless it is a lower-case letter (log 21). -/
theorem charMask_past_fontMax (h : ¬ (0x60#8 ≤ cfg.fontMax ∧ cfg.fontMax ≤ 0x79#8)) :
    charMask cfg (sweepChar (cfg.fontMax.toNat + 1)) = 0#16 := by
  have hmax := fontMax_toNat_le cfg
  have hcode := toNat_sweepChar (c := cfg.fontMax.toNat + 1) (by omega)
  simp only [BitVec.le_def, BitVec.toNat_ofNat] at h
  apply charMask_blank
  right
  rw [foldCase_other (by simp only [BitVec.le_def, hcode, BitVec.toNat_ofNat]; omega), BitVec.lt_def, hcode]
  omega

/-- A lower-case letter of a sweep shows as its upper-case one (R113(d)). -/
theorem charMask_sweepChar_lower (cfg : Config) (h : 0x61 ≤ c) (h' : c ≤ 0x7A) :
    charMask cfg (sweepChar c) = charMask cfg (sweepChar (c - 0x20)) := by
  have hcode := toNat_sweepChar (c := c) (by omega)
  have hcode' := toNat_sweepChar (c := c - 0x20) (by omega)
  have hsub : sweepChar (c - 0x20) = sweepChar c - 0x20#8 := by
    apply BitVec.eq_of_toNat_eq
    rw [BitVec.toNat_sub, hcode, hcode', BitVec.toNat_ofNat]
    omega
  rw [hsub, charMask_sub cfg]
  simp only [BitVec.le_def, hcode, BitVec.toNat_ofNat]
  omega

theorem leftOf_sweepFrame (cfg : Config) (c : Nat) :
    leftOf (sweepFrame cfg c) = charMask cfg (sweepChar c) := leftOf_composeFrame ..

theorem rightOf_sweepFrame (cfg : Config) (c : Nat) :
    rightOf (sweepFrame cfg c) = charMask cfg (sweepRightChar cfg c) := rightOf_composeFrame ..

/-- The frame of a pair up to `FONT_MAX`, and of the last pair where its right digit is blank by R86 as well. -/
theorem sweepFrame_eq_composeFrame (hc : c ≤ cfg.fontMax.toNat)
    (h : c + 1 ≤ cfg.fontMax.toNat ∨ ¬ (0x60#8 ≤ cfg.fontMax ∧ cfg.fontMax ≤ 0x79#8)) :
    sweepFrame cfg c = composeFrame cfg (sweepChar c) (sweepChar (c + 1)) := by
  by_cases hnext : c + 1 ≤ cfg.fontMax.toNat
  · rw [sweepFrame, sweepRightChar_of_le hnext]
  · obtain rfl : c = cfg.fontMax.toNat := by omega
    rw [sweepFrame, sweepRightChar_of_lt (by omega), composeFrame, charMask_zero, composeFrame,
      charMask_past_fontMax (h.resolve_left hnext)]

end Codes

/-! ## The steps of a sweep, run -/

/-- The state after the first `j` steps of a sweep of chain `k` from code `c` (R112). -/
def afterSweeps (cfg : Config) (k : Nat) (ch : Chain) (c : Nat) (s : State) : Nat → State
  | 0 => s
  | j + 1 => afterSweep cfg k ch (c + 2 * j) (afterSweeps cfg k ch c s j)

/-- `DISP` after the first `j` steps: the last frame sent, if there was one. -/
def sweepsDisp (cfg : Config) (k c : Nat) (disp : List (Option SegFrame)) : Nat → List (Option SegFrame)
  | 0 => disp
  | j + 1 => disp.set k (some (sweepFrame cfg (c + 2 * j)))

section Sweeps

variable {cfg : Config} {k : Nat} {ch : Chain} {c : Nat} {s : State}

/-- The events of the first `j` steps. -/
theorem afterSweeps_eq (j : Nat) :
    afterSweeps cfg k ch c s j =
      { s.emitAll ((List.range j).flatMap fun j =>
          frameEvents cfg ch (sweepFrame cfg (c + 2 * j)) ++ [.dlyMs cfg.tSweepMs]) with
        disp := sweepsDisp cfg k c s.disp j } := by
  induction j with
  | zero => rfl
  | succ j ih =>
    have hdisp : (afterSweeps cfg k ch c s j).disp.set k (some (sweepFrame cfg (c + 2 * j))) =
        sweepsDisp cfg k c s.disp (j + 1) := by
      rw [ih]
      cases j <;> simp [sweepsDisp]
    rw [List.range_succ, List.flatMap_append, List.flatMap_singleton, ← State.emitAll_trans ih, afterSweeps,
      afterSweep_eq, hdisp]

/-- A sweep runs the steps that R113(a) counts. -/
theorem sweepLoop_eq_afterSweeps (r j : Nat) (h : j + r = sweepSteps cfg c) :
    sweepLoop cfg k ch r (c + 2 * j) (afterSweeps cfg k ch c s j) =
      (afterSweeps cfg k ch c s (sweepSteps cfg c)).complete none := by
  induction r generalizing j with
  | zero => rw [sweepLoop, if_neg (lt_sweepSteps_iff.not.1 (by omega)), ← h]; rfl
  | succ r ih =>
    rw [sweepLoop_succ, if_pos (lt_sweepSteps_iff.1 (by omega))]
    exact ih (j + 1) (by omega)

theorem dtest_of_chain (hch : s.reg[k]? = some ch) (c : CharCode) :
    dtest cfg k c s = (afterSweeps cfg k ch c.toNat s (sweepSteps cfg c.toNat)).complete none :=
  (State.withChain_of_some hch).trans (sweepLoop_eq_afterSweeps _ 0 (Nat.zero_add _))

/-- The steps of a sweep move the pins of its chain alone. -/
theorem framesWritten_afterSweeps (hwf : sparseWf PinState.untouched s.pins = true) (j : Nat) :
    s.FramesWritten [ch] (afterSweeps cfg k ch c s j) := by
  induction j with
  | zero => exact .refl hwf
  | succ j ih =>
    obtain ⟨hwrite, -⟩ := State.framesWritten_frameEvents (R := [ch]) (cfg := cfg) ih.wf
      (List.mem_singleton_self ch) (sweepFrame cfg (c + 2 * j))
    refine (ih.trans (hwrite.trans (State.framesWritten_dlyMs hwrite.wf cfg.tSweepMs))).of_pins ?_
    rw [afterSweeps, afterSweep_eq, State.emitAll_append]

end Sweeps

/-- Settles O42: the steps one after another, and the frames that R86 and log 21 give. -/
theorem dtestSweepsPairs : Obligations.DtestSweepsPairs := by
  refine ⟨fun k c s ch hch => ?registered, fun cfg c j => lt_sweepSteps_iff,
    fun cfg c hc => ⟨fun h => sweepFrame_eq_composeFrame hc h, fun h => sweepFrame_of_lt (by omega)⟩,
    fun k c s hk => congrArg Host.Outcome.next (State.withChain_of_le hk), fun k c hk => ?encoding⟩
  case registered =>
    refine ⟨_, exec_dtest s k c, ?_⟩
    rw [dtest_of_chain hch]
    refine ⟨?_, ?_, fun hwf => ?_, ?_, rfl, rfl, ?_⟩
    · rw [afterSweeps_eq]; simp [closedSweepEvents]
    · rw [afterSweeps_eq]; simp [closedSweepEvents]
    · have hwritten := framesWritten_afterSweeps (cfg := Config.engine) (k := k) (ch := ch) (c := c.toNat) hwf
        (sweepSteps Config.engine c.toNat)
      exact ⟨hwritten.mode, fun p hd hc => hwritten.other p fun ch' hch' =>
        List.mem_singleton.1 hch' ▸ ⟨hd, hc⟩⟩
    · rw [afterSweeps_eq, State.complete_disp]
      simp only
      split_ifs with h
      · have hsteps : sweepSteps Config.engine c.toNat = 0 := if_pos h
        rw [hsteps, sweepsDisp]
      · have hsteps : 0 < sweepSteps Config.engine c.toNat :=
          lt_sweepSteps_iff.2 (by simpa [BitVec.lt_def] using h)
        obtain ⟨j, hj⟩ := Nat.exists_eq_add_of_le' hsteps
        rw [hj, sweepsDisp, Nat.add_sub_cancel]
    · rw [afterSweeps_eq]; simp [SameButOutputs]
  case encoding =>
    refine ⟨opField_ofFields .., toNat_aField_ofFields _ _ hk, ?_⟩
    rw [encode, wByte0, slice_ofFields_setWidth_low _ _ _ (by decide)]

/-! ## Sums over a sweep -/

/-- A number that adds up, over a whole sweep. -/
theorem EventSum.sum_closedSweepEvents {μ : List Event → Nat} (hμ : EventSum μ) {cfg : Config} {ch : Chain}
    {a : Nat} (hframe : ∀ f, μ (frameEvents cfg ch f) = a) (c : Nat) :
    μ (closedSweepEvents cfg ch c) = sweepSteps cfg c * (a + μ [.dlyMs cfg.tSweepMs]) := by
  rw [closedSweepEvents, hμ.sum_flatMap fun j _ => by rw [hμ.append, hframe], List.length_range]

/-- Settles O43: the codes stay below 0x80, and each digit's mask is a fact about its code. -/
theorem dtestStepProperties : Obligations.DtestStepProperties := by
  intro cfg ch c
  have hmax := fontMax_toNat_le cfg
  refine ⟨?events, fun j hj => ?codes, fun hc heven => ⟨?lastPair, charMask_past_fontMax⟩, ?blank,
    fun _ h h' => ?left, fun hc h h' => ?right, fun hc => ?below⟩
  case events =>
    rw [eventSum_length.sum_closedSweepEvents (a := 144) (fun f => length_frameEvents cfg ch f)]
    exact Nat.mul_comm _ _
  case codes =>
    have := lt_sweepSteps_iff.1 hj
    exact ⟨by omega, toNat_sweepChar (by omega)⟩
  case lastPair =>
    rw [sweepSteps, if_neg (by omega)]
    omega
  case blank => rw [rightOf_sweepFrame, sweepRightChar_of_lt (Nat.lt_succ_self _), charMask_zero]
  case left => rw [leftOf_sweepFrame, charMask_sweepChar_lower cfg h h']
  case right => rw [rightOf_sweepFrame, sweepRightChar_of_le hc, charMask_sweepChar_lower cfg h h']
  case below =>
    have hmin := BitVec.le_def.1 cfg.fontMin_le_max
    rw [sweepFrame, sweepRightChar_of_le (by omega), composeFrame,
      charMask_of_lt_fontMin (by rw [BitVec.lt_def, toNat_sweepChar (by omega)]; omega),
      charMask_of_lt_fontMin (by rw [BitVec.lt_def, toNat_sweepChar (by omega)]; omega)]
    rfl

/-- Settles O52: a frame write has 36 pulses, and the loops add theirs up. -/
theorem nominalDelays : Obligations.NominalDelays := by
  intro s
  have hframe : ∀ k f, k < s.count → ∃ t es, exec (.wrframe k f) s = .next t ∧ t.trace = s.trace ++ es ∧
      nominalUs es = 36 * Config.engine.tPulseUs ∧ nominalMs es = 0 := fun k f hk => by
    obtain ⟨ch, hch⟩ := State.exists_chain hk
    exact ⟨_, _, exec_wrframe s k f, by rw [wrframe_of_chain hch, State.complete_trace, State.frameOut_trace],
      nominalUs_frameEvents .., nominalMs_frameEvents ..⟩
  refine ⟨fun d c => ?regchain, fun c => ⟨_, exec_chmask s c, rfl⟩, fun l r => ⟨_, exec_compose s l r, rfl⟩,
    fun k b hk => ?wrbit, hframe, fun k l r hk => hframe k _ hk, fun m t L hL hL0 => ?scroll,
    fun k c hk => ?dtest⟩
  case regchain =>
    by_cases hfull : s.count = Config.engine.maxChains
    · exact ⟨_, [], exec_regchain s d c, by rw [regchain_of_full hfull]; simp, rfl, rfl⟩
    · exact ⟨_, regEvents d c, exec_regchain s d c,
        by rw [regchain_of_not_full hfull]; simp [State.registered], rfl, rfl⟩
  case wrbit =>
    obtain ⟨ch, hch⟩ := State.exists_chain hk
    exact ⟨_, bitEvents Config.engine ch b, exec_wrbit s k b, by rw [wrbit_of_chain hch]; simp, rfl, rfl⟩
  case scroll =>
    refine ⟨_, _, exec_scroll s m t, scroll_trace t hL hL0, ?_, ?_⟩
    · rw [eventSum_nominalUs.sum_closedScrollEvents fun ch f => nominalUs_frameEvents _ ch f]
      simp only [nominalUs, State.count]
      ring
    · rw [eventSum_nominalMs.sum_closedScrollEvents fun ch f => nominalMs_frameEvents _ ch f]
      simp only [nominalMs, State.count]
      ring
  case dtest =>
    obtain ⟨ch, hch⟩ := State.exists_chain hk
    refine ⟨_, closedSweepEvents Config.engine ch c.toNat, exec_dtest s k c, ?_, ?_, ?_⟩
    · rw [dtest_of_chain hch, afterSweeps_eq]; simp [closedSweepEvents]
    · rw [eventSum_nominalUs.sum_closedSweepEvents fun f => nominalUs_frameEvents _ ch f]
      rfl
    · rw [eventSum_nominalMs.sum_closedSweepEvents fun f => nominalMs_frameEvents _ ch f]
      simp only [nominalMs, Nat.zero_add, Nat.add_zero]

end Sys2Proof.Machine
end
